-- ==== Sys2Proof/Word.lean ====
section
/-! DEFINITION. The one data width of the machine: a byte (00_scope.md R6, R10). -/

namespace Sys2Proof

/-- An 8-bit unsigned value, 0 to 255; bit 7 is the most significant (R10). Registers, memory cells, immediates,
opcodes and output events are all bytes (R39). -/
abbrev Byte := BitVec 8

end Sys2Proof
end

