-- ==== Sys2Proof/Syntax.lean ====
section
/-! DEFINITION. The instructions, one constructor per row of spec/opcode_table.json (30_encoding.md R52, R54). -/

namespace Sys2Proof

/-- An instruction with its operand bytes. A register operand is a WHOLE byte (R51): values 8 to 255 are operands like
any other and are turned away when the instruction executes, not when it is decoded (R55). -/
inductive Instr where
  /-- HLT, format F0 (R91). -/
  | hlt
  /-- PUSH reg, format F1R (R88). -/
  | push (reg : Byte)
  /-- POP reg, format F1R (R89). -/
  | pop (reg : Byte)
  /-- PRN reg, format F1R (R79). -/
  | prn (reg : Byte)
  /-- LDI reg, imm8, format F2RI (R78). -/
  | ldi (reg : Byte) (imm : Byte)
  /-- MUL regA, regB, format F2RR (R86). -/
  | mul (regA : Byte) (regB : Byte)
  /-- One of the 250 unrecognized bytes, kept as it was fetched; a one-byte no-op (R54, R92). -/
  | unrecognized (byte : Byte)
  deriving DecidableEq, Repr

end Sys2Proof
end

