-- ==== Sys2Proof/Decode.lean ====
section
/-! DEFINITION. The instruction_decoder (30_encoding.md R49 to R59) and, after it, the encoder written from the same table.
Decoding is written once, over any source of bytes (`decodeWith`): a list of bytes (`decode`) and the machine's memory
(Machine/Fetch.lean) are its two sources. -/

namespace Sys2Proof

/-- The instruction classes the decoder answers with (R53, R67). -/
inductive OpClass where
  | hlt | push | pop | prn | ldi | mul | unrecognized
  deriving DecidableEq, Repr

/-- Why a list of bytes holds no whole instruction. No byte value is illegal (R54), so running out of bytes is the only
reason. -/
inductive DecodeError where
  /-- There is no opcode byte. -/
  | noOpcode
  /-- The opcode `op` needs an operand byte at offset `k` and the list ends before it. -/
  | missingOperand (op : Byte) (k : Nat)
  deriving DecidableEq, Repr

/-- `Decode(b)` of R53: the class and the operand count of an opcode byte. All eight bits are compared; bits 7:6 give no
length to an unrecognized byte (R56). -/
def decodeOpcode (b : Byte) : OpClass × Nat :=
  if b = 0x01 then (.hlt, 0)
  else if b = 0x45 then (.push, 1)
  else if b = 0x46 then (.pop, 1)
  else if b = 0x47 then (.prn, 1)
  else if b = 0x82 then (.ldi, 2)
  else if b = 0xA2 then (.mul, 2)
  else (.unrecognized, 0)

/-- Reads one instruction from a source of bytes: `read none 0` is the opcode, and then `read (some op) k` the operand
bytes at offsets k = 1, 2, in this order, exactly as many as the opcode's operand count (R66 to R68). The first read that
fails ends it. -/
def decodeWith {ε : Type} (read : Option Byte → Nat → Except ε Byte) : Except ε Instr := do
  let op ← read none 0
  match (decodeOpcode op).1 with
  | .hlt => return .hlt
  | .push => do
    let b1 ← read (some op) 1
    return .push b1
  | .pop => do
    let b1 ← read (some op) 1
    return .pop b1
  | .prn => do
    let b1 ← read (some op) 1
    return .prn b1
  | .ldi => do
    let b1 ← read (some op) 1
    let b2 ← read (some op) 2
    return .ldi b1 b2
  | .mul => do
    let b1 ← read (some op) 1
    let b2 ← read (some op) 2
    return .mul b1 b2
  | .unrecognized => return .unrecognized op

/-- The number of operand bytes after the opcode (the operand count column of R52; 0 for an unrecognized byte, R54). -/
def Instr.operandCount : Instr → Nat
  | .hlt => 0
  | .push _ => 1
  | .pop _ => 1
  | .prn _ => 1
  | .ldi _ _ => 2
  | .mul _ _ => 2
  | .unrecognized _ => 0

/-- The length in bytes: 1 plus the operand count (R49). -/
def Instr.length (i : Instr) : Nat := 1 + i.operandCount

/-- The byte at offset `k` of a list, as a source for `decodeWith`. -/
def byteOfList (bytes : List Byte) (op : Option Byte) (k : Nat) : Except DecodeError Byte :=
  match bytes[k]? with
  | some b => .ok b
  | none =>
    match op with
    | none => .error .noOpcode
    | some o => .error (.missingOperand o k)

/-- Decodes the instruction at the head of a list of bytes; answers it with the bytes after it, or names what is missing. -/
def decode (bytes : List Byte) : Except DecodeError (Instr × List Byte) :=
  match decodeWith (byteOfList bytes) with
  | .ok i => .ok (i, bytes.drop i.length)
  | .error e => .error e

/-- The opcode byte of an instruction (R52). -/
def Instr.opcode : Instr → Byte
  | .hlt => 0x01
  | .push _ => 0x45
  | .pop _ => 0x46
  | .prn _ => 0x47
  | .ldi _ _ => 0x82
  | .mul _ _ => 0xA2
  | .unrecognized b => b

/-- The operand bytes in the order they lie in memory (R50, R60). -/
def Instr.operands : Instr → List Byte
  | .hlt => []
  | .push r => [r]
  | .pop r => [r]
  | .prn r => [r]
  | .ldi r v => [r, v]
  | .mul a b => [a, b]
  | .unrecognized _ => []

/-- The bytes of an instruction: the opcode and then the operands, at increasing addresses (R39, R50). -/
def encode (i : Instr) : List Byte := i.opcode :: i.operands

/-- The three bytes (the longest instruction, R49) that the low `nbits` bits of `w` stand for, the first byte being bits
7..0; the bits above `nbits` are 0. -/
def tableWordBytes (nbits w : Nat) : List Byte :=
  let v := w % 2 ^ nbits
  [BitVec.ofNat 8 v, BitVec.ofNat 8 (v / 256), BitVec.ofNat 8 (v / 65536)]

/-- The instruction the decoder reads from an instruction whose bits are `w`, numbered as spec/opcode_table.json numbers
them. -/
def decodeTableWord (nbits w : Nat) : Option Instr :=
  match decode (tableWordBytes nbits w) with
  | .ok (i, _) => some i
  | .error _ => none

end Sys2Proof
end

