-- ==== Sys2Proof/Config.lean ====
section
/-! DEFINITION. What is fixed for one machine and does not change as it runs: the fixed parameters of 00_scope.md R6
and the one parameter the spec leaves to the implementation, STACK_BASE (R7, R112, 92_eei_decisions.md D2). -/

namespace Sys2Proof

/-- The parameter an implementation chooses. R112: a model takes STACK_BASE as a byte configuration argument. -/
structure Config where
  /-- The reset value of R7 (R31). -/
  stackBase : Byte
  deriving DecidableEq, Repr

/-- The spec's default, STACK_BASE = 0xF4 (R7, D2). Log entry 1. -/
def Config.standard : Config := { stackBase := 0xF4 }

/-- MEM_SIZE: 256 byte cells, addresses 0 to 255 (R6, R33, R36). -/
abbrev Config.memSize : Nat := 256

/-- NREG: 8 general registers, indices 0 to 7 (R6, R15). -/
abbrev Config.numRegs : Nat := 8

/-- SP_INDEX: register R7 is the stack pointer (R6, R20). -/
abbrev Config.spIndex : Fin Config.numRegs := 7

end Sys2Proof
end

