-- ==== Sys2Proof/Machine/State.lean ====
section
/-! DEFINITION. The state of the block as plain data (10_state.md), the reasons a step can stop, and the state after reset. -/

namespace Sys2Proof.Machine

/-- The tag the ALU is given (42_alu.md R82, R84). The set of operations is closed; `other` stands for any tag outside it,
told apart by a number (log entry 2). -/
inductive AluTag where
  | add
  | mul
  | other (tag : Nat)
  deriving DecidableEq, Repr

/-- The three kinds of fault the block raises (60_exceptions.md R93). -/
inductive FaultKind where
  | outOfRange
  | invalidRegister
  | unsupportedOperation
  deriving DecidableEq, Repr

/-- The detail a fault records: the faulting address, register index or ALU tag (R28). -/
inductive FaultDetail where
  | address (a : Nat)
  | register (i : Nat)
  | tag (t : AluTag)
  deriving DecidableEq, Repr

/-- The fault record of R28, field by field. -/
structure FaultRecord where
  /-- The number of R93: 1, 2 or 3. -/
  code : Nat
  kind : FaultKind
  /-- The address of the faulting instruction's opcode. -/
  pc : Nat
  /-- The fetched opcode byte; none if the opcode fetch itself faulted. -/
  opcode : Option Byte
  detail : FaultDetail
  deriving DecidableEq, Repr

/-- The memory: (address, byte) pairs, addresses strictly rising, none equal to what an unlisted address reads as
(`Memory.unlisted` in Machine/Ops.lean; the form is `Memory.wf` there). -/
structure Memory where
  cells : List Host.Cell
  deriving DecidableEq, Repr

/-- The whole architectural state (10_state.md R15 to R31): nothing else exists (R32). -/
structure State where
  /-- R0 to R7; R7 is the stack pointer and has no other storage (R15, R20). -/
  regs : Vector Byte 8
  /-- The program counter, a natural number that never wraps (R23, R24). -/
  pc : Nat
  /-- Set by HLT alone (R26). -/
  halted : Bool
  /-- The fault record, none until a step faults (R28). -/
  fault : Option FaultRecord
  /-- The 256 cells shared by code, data and stack (R29, R33). -/
  mem : Memory
  /-- The output trace, oldest event first (R30). -/
  out : List Byte
  deriving DecidableEq, Repr

/-- Why the block has no step (40_fetch_decode.md R63). Faults of the SPEC (R93) are not these: raising one is a next
state that holds the fault record (R99), and only the step after it ends here. -/
inductive Fault where
  /-- Raised by `step` alone, when halted = true: the block takes no step until reset (R26, R63). Safe: the spec gives no
  step from there. -/
  | halted
  /-- Raised by `step` alone, when a fault record is set: the block takes no further step until reset (R28, R63, R99).
  Safe: the spec gives no step from there. -/
  | faulted
  deriving DecidableEq, Repr

/-- What the model gives no meaning to. -/
inductive Refusal where
  /-- Raised by an arm of `exec` whose instruction has no meaning yet; no arm is left so. Safe: the model stops where the
  hardware goes on. -/
  | notModelled (mnemonic : String)
  deriving DecidableEq, Repr

/-- What one step or one instruction answers. -/
abbrev Outcome := Host.Outcome State Fault Refusal

/-- The state after reset for a given STACK_BASE (R31, R110): the registers zero but for R7, pc 0, not halted, no fault,
every cell 0 (nothing listed) and no output. -/
def State.resetWith (c : Config) : State where
  regs := #v[0, 0, 0, 0, 0, 0, 0, c.stackBase]
  pc := 0
  halted := false
  fault := none
  mem := { cells := [] }
  out := []

/-- The state after reset with the default STACK_BASE 0xF4 (R31). -/
def State.reset : State := State.resetWith Config.standard

end Sys2Proof.Machine
end

