-- ==== Sys2Proof/Machine/Ops.lean ====
section
/-! DEFINITION. The named operations over memory, registers and output (00_scope.md R11), and taking a fault as one shared
operation (60_exceptions.md R99). There is no return from a fault (R100), so nothing stands beside it. -/

namespace Sys2Proof.Machine

/-- What a primitive raises, with its detail: the F(detail) of R99. -/
inductive Cause where
  /-- A memory access at an address outside [0, 256) (R94). -/
  | outOfRange (addr : Nat)
  /-- A register index outside [0, 8) (R95). -/
  | invalidRegister (index : Nat)
  /-- An ALU tag outside the set of ADD and MUL (R96). -/
  | unsupportedOperation (tag : AluTag)
  deriving DecidableEq, Repr

/-! ### Memory (20_memory.md) -/

/-- What an address with no entry reads as: 0, the content of every cell at construction (R31, R47). -/
def Memory.unlisted : Byte := 0

/-- The byte a list of cells holds at `a`. -/
def cellAt (a : Nat) : List Host.Cell → Byte
  | [] => Memory.unlisted
  | c :: rest => if c.1 = a then c.2 else cellAt a rest

/-- The content of the cell at `a`, listed or not; no range check. -/
def Memory.peek (m : Memory) (a : Nat) : Byte := cellAt a m.cells

/-- Puts a cell in its place by address. -/
def insertCell (c : Host.Cell) : List Host.Cell → List Host.Cell
  | [] => [c]
  | d :: rest => if c.1 < d.1 then c :: d :: rest else d :: insertCell c rest

/-- Stores `v` at `a`: the old entry goes, and a new one comes unless `v` is what an unlisted address reads as. -/
def Memory.poke (m : Memory) (a : Nat) (v : Byte) : Memory :=
  let kept := m.cells.filter (fun c => c.1 != a)
  { cells := if v = Memory.unlisted then kept else insertCell (a, v) kept }

/-- The canonical form of a list of cells: addresses inside memory and strictly rising, no entry that says nothing. -/
def cellsWf : List Host.Cell → Bool
  | [] => true
  | c :: rest =>
    decide (c.1 < Config.memSize) && (c.2 != Memory.unlisted) && rest.all (fun d => decide (c.1 < d.1)) && cellsWf rest

/-- The memory is in its canonical form. -/
def Memory.wf (m : Memory) : Bool := cellsWf m.cells

/-- `MemRead(addr, 1)` (R34). It changes no state. -/
def State.memRead (s : State) (addr : Nat) : Except Cause Byte :=
  if addr ≥ Config.memSize then .error (.outOfRange addr) else .ok (s.mem.peek addr)

/-- The state with another memory and nothing else changed. -/
def State.withMem (s : State) (m : Memory) : State := { s with mem := m }

/-- `MemWrite(addr, 1, v)` (R35). It changes only the cell at `addr`. -/
def State.memWrite (s : State) (addr : Nat) (v : Byte) : Except Cause State :=
  if addr ≥ Config.memSize then .error (.outOfRange addr) else .ok (s.withMem (s.mem.poke addr v))

/-! ### Registers (10_state.md R15 to R20) -/

/-- The byte a register keeps of an exact result: the value modulo 256, negative values too (R17). -/
def narrow (v : Int) : Byte := BitVec.ofInt 8 v

/-- The content of register `r`. -/
def State.reg (s : State) (r : Fin Config.numRegs) : Byte := s.regs[r.val]'r.isLt

/-- Register `r` takes `v mod 256` (R17). -/
def State.setReg (s : State) (r : Fin Config.numRegs) (v : Int) : State :=
  { s with regs := s.regs.set r.val (narrow v) r.isLt }

/-- The index check of R18: an index outside [0, 8) raises InvalidRegister with itself as detail. -/
def checkIndex (i : Nat) : Except Cause (Fin Config.numRegs) :=
  if h : i < Config.numRegs then .ok ⟨i, h⟩ else .error (.invalidRegister i)

/-- The read `x[i]` (R16, R18). -/
def State.readX (s : State) (i : Nat) : Except Cause Byte := do
  let r ← checkIndex i
  return s.reg r

/-- The write `x[i] <- v` (R17, R18). -/
def State.writeX (s : State) (i : Nat) (v : Int) : Except Cause State := do
  let r ← checkIndex i
  return s.setReg r v

/-- `sp`, a synonym for x[7] (R11, R20). -/
def State.sp (s : State) : Byte := s.reg Config.spIndex

/-- `sp <- v`, which wraps modulo 256 as every register write does (R21). -/
def State.setSp (s : State) (v : Int) : State := s.setReg Config.spIndex v

/-! ### Output (41_register_output.md R80) -/

/-- `Emit(v)`: one more event at the end of the trace (R11, R30). -/
def State.emit (s : State) (v : Byte) : State := { s with out := s.out ++ [v] }

/-! ### Taking a fault, and retiring (R71, R73, R99) -/

/-- The kind of a fault (R93). -/
def Cause.kind : Cause → FaultKind
  | .outOfRange _ => .outOfRange
  | .invalidRegister _ => .invalidRegister
  | .unsupportedOperation _ => .unsupportedOperation

/-- The detail a fault records (R93). -/
def Cause.detail : Cause → FaultDetail
  | .outOfRange a => .address a
  | .invalidRegister i => .register i
  | .unsupportedOperation t => .tag t

/-- The code of a kind of fault (R93). -/
def FaultKind.code : FaultKind → Nat
  | .outOfRange => 1
  | .invalidRegister => 2
  | .unsupportedOperation => 3

/-- Fault entry (R99): `s` is the state before the step, and only `fault` is written. -/
def State.takeFault (s : State) (op : Option Byte) (c : Cause) : State :=
  { s with
    fault := some
      { code := c.kind.code
        kind := c.kind
        pc := s.pc
        opcode := op
        detail := c.detail } }

/-- The pc advance at retirement, `pc <- pc + 1 + n`, exact (R73). -/
def State.advance (s : State) (n : Nat) : State := { s with pc := s.pc + 1 + n }

/-- How an instruction started in `s` ends (R71): with its effect's state and the pc advance, or, where the effect raised
a cause, with `s` and that fault taken, whatever the effect had written before it. -/
def conclude (i : Instr) (s : State) (effect : Except Cause State) : Outcome :=
  match effect with
  | .ok t => .next (t.advance i.operandCount)
  | .error c => .next (s.takeFault (some i.opcode) c)

end Sys2Proof.Machine
end

