-- ==== Sys2Proof/Machine/Operands.lean ====
section
/-! DEFINITION. The operand forms: the register operand byte with its check (30_encoding.md R51, 40_fetch_decode.md R69),
the immediate, and the two stack forms (43_stack.md R87). The hardware has no flags (10_state.md R25), so there is no file
of flag computations. -/

namespace Sys2Proof.Machine

/-- `check b`: a register operand byte of 8 or more raises InvalidRegister with the byte as detail; no masking (R51, R69,
R72). -/
def checkOperand (b : Byte) : Except Cause Unit :=
  if b.toNat < Config.numRegs then .ok () else .error (.invalidRegister b.toNat)

/-- The value of an immediate byte: unsigned, as it is (R51). -/
def immValue (b : Byte) : Int := b.toNat

/-- The pre-decrement of PUSH, `sp <- sp - 1` (R87, R88). -/
def State.preDecrement (s : State) : State := s.setSp (s.sp.toNat - 1)

/-- The post-increment of POP, `sp <- sp + 1` (R87, R89). -/
def State.postIncrement (s : State) : State := s.setSp (s.sp.toNat + 1)

end Sys2Proof.Machine
end

