-- ==== Sys2Proof/Machine/Alu.lean ====
section
/-! DEFINITION. The ALU (42_alu.md R81 to R85) and the arithmetic instruction MUL (R86). -/

namespace Sys2Proof.Machine

/-- `Alu(op, d, s)` (R82): the exact unsigned sum or product, kept modulo 256; any other tag raises UnsupportedOperation.
No flag is produced (R81). ADD is selected by no opcode (R58). -/
def alu (op : AluTag) (d s : Byte) : Except Cause Byte :=
  match op with
  | .add => .ok (narrow (d.toNat + s.toNat))
  | .mul => .ok (narrow (d.toNat * s.toNat))
  | .other t => .error (.unsupportedOperation (.other t))

/-- `apply(operation, dest, src)` (R81, R83): both registers are read before the destination is written. -/
def State.aluApply (s : State) (op : AluTag) (dest src : Nat) : Except Cause State := do
  let d ← s.readX dest
  let v ← s.readX src
  let r ← alu op d v
  s.writeX dest r.toNat

/-- MUL regA, regB (R86). -/
def execMul (regA regB : Byte) (s : State) : Outcome :=
  conclude (.mul regA regB) s do
    checkOperand regA
    checkOperand regB
    s.aluApply .mul regA.toNat regB.toNat

end Sys2Proof.Machine
end

