-- ==== Sys2Proof/Machine/Control.lean ====
section
/-! DEFINITION. HLT and the unrecognized bytes (44_control.md). -/

namespace Sys2Proof.Machine

/-- HLT (R91): halted is set, and the pc advances past it. -/
def execHlt (s : State) : Outcome :=
  conclude .hlt s (.ok { s with halted := true })

/-- An unrecognized byte (R92): no effect but the pc advance. -/
def execUnrecognized (byte : Byte) (s : State) : Outcome :=
  conclude (.unrecognized byte) s (.ok s)

end Sys2Proof.Machine
end

