-- ==== Sys2Proof/Machine/RegisterOutput.lean ====
section
/-! DEFINITION. The register load and output instructions LDI and PRN (41_register_output.md). -/

namespace Sys2Proof.Machine

/-- LDI reg, imm8 (R78). -/
def execLdi (reg imm : Byte) (s : State) : Outcome :=
  conclude (.ldi reg imm) s do
    checkOperand reg
    s.writeX reg.toNat (immValue imm)

/-- PRN reg (R79). -/
def execPrn (reg : Byte) (s : State) : Outcome :=
  conclude (.prn reg) s do
    checkOperand reg
    let v ← s.readX reg.toNat
    return s.emit v

end Sys2Proof.Machine
end

