-- ==== Sys2Proof/Machine/Stack.lean ====
section
/-! DEFINITION. The stack instructions PUSH and POP (43_stack.md), in the document's order of reads and writes. -/

namespace Sys2Proof.Machine

/-- PUSH reg (R88): sp is decremented first, and the register is read after that, so PUSH R7 stores the new sp. -/
def execPush (reg : Byte) (s : State) : Outcome :=
  conclude (.push reg) s do
    checkOperand reg
    let v ← s.preDecrement.readX reg.toNat
    s.preDecrement.memWrite s.preDecrement.sp.toNat v

/-- POP reg (R89): the register is written first, and sp is read again after that, so POP R7 increments the loaded
value. -/
def execPop (reg : Byte) (s : State) : Outcome :=
  conclude (.pop reg) s do
    checkOperand reg
    let v ← s.memRead s.sp.toNat
    let t ← s.writeX reg.toNat v.toNat
    return t.postIncrement

end Sys2Proof.Machine
end

