-- ==== Sys2Proof/Machine/Dispatch.lean ====
section
/-! DEFINITION. Dispatch of an instruction to its meaning (40_fetch_decode.md R70, R77). -/

namespace Sys2Proof.Machine

/-- One arm per instruction; what every one of them does is in the file of its family. -/
def exec (i : Instr) (s : State) : Host.Outcome State Fault Refusal :=
  match i with
  | .hlt => Sys2Proof.Machine.execHlt s
  | .push reg => Sys2Proof.Machine.execPush reg s
  | .pop reg => Sys2Proof.Machine.execPop reg s
  | .prn reg => Sys2Proof.Machine.execPrn reg s
  | .ldi reg imm => Sys2Proof.Machine.execLdi reg imm s
  | .mul regA regB => Sys2Proof.Machine.execMul regA regB s
  | .unrecognized byte => Sys2Proof.Machine.execUnrecognized byte s

end Sys2Proof.Machine
end

