-- ==== Sys2Proof/Machine/Fetch.lean ====
section
/-! DEFINITION. The fetch_unit (40_fetch_decode.md R66 to R68), and placing an instruction's bytes where it reads them. -/

namespace Sys2Proof.Machine

/-- A fetch that faulted: the opcode already fetched, if any, and the cause. -/
structure FetchFault where
  opcode : Option Byte
  cause : Cause
  deriving DecidableEq, Repr

/-- The byte at pc + k as a source for the decoder; the fault carries the opcode fetched so far (R66, R68). -/
def State.fetchByte (s : State) (op : Option Byte) (k : Nat) : Except FetchFault Byte :=
  match s.memRead (s.pc + k) with
  | .ok b => .ok b
  | .error c => .error { opcode := op, cause := c }

/-- Opcode fetch, decode and operand fetch (R66 to R68). -/
def State.fetch (s : State) : Except FetchFault Instr := decodeWith s.fetchByte

/-- Places bytes at increasing addresses from `a` on; a byte that would lie outside memory is dropped. -/
def Memory.place (m : Memory) (a : Nat) : List Byte → Memory
  | [] => m
  | b :: rest => Memory.place (if a < Config.memSize then m.poke a b else m) (a + 1) rest

end Sys2Proof.Machine
end

