-- ==== Sys2Proof/Machine/Step.lean ====
section
/-! DEFINITION. One step of the block (40_fetch_decode.md R62 to R72). -/

namespace Sys2Proof.Machine

/-- One step: none while halted or faulted (R63); else fetch and decode, taking the fault of a fetch outside memory (R66,
R68, R99), and then the instruction's meaning (R70). -/
def step (s : State) : Host.Outcome State Fault Refusal :=
  if s.halted then .fault .halted
  else if s.fault.isSome then .fault .faulted
  else
    match s.fetch with
    | .error f => .next (s.takeFault f.opcode f.cause)
    | .ok i => exec i s

/-- `s` with the instruction whose table bits are `w` placed at the pc, where the next step fetches (log entry 5). -/
def State.withFetchWord (s : State) (nbits w : Nat) : State :=
  { s with mem := s.mem.place s.pc (tableWordBytes nbits w) }

end Sys2Proof.Machine
end

