-- ==== Sys2Proof/Machine/Loader.lean ====
section
/-! DEFINITION. The host's duty before the first step: reading a program image and writing it into memory
(70_reset_and_hazards.md R113 to R116). The spec keeps the loader outside the block (00_scope.md R5) but states its
contract, and this file is that contract. Text is a list of characters. -/

namespace Sys2Proof.Machine

/-- The errors of the host's loader and command line (60_exceptions.md R97). The block never raises them. -/
inductive LoadError where
  /-- The token at this position, counted from 0, is no base-2 literal or exceeds 255 (R115). -/
  | malformedProgram (token : Nat)
  /-- There are more than 256 tokens (R115). -/
  | programTooLarge
  /-- No program image was given (R116). -/
  | missingProgramArgument
  deriving DecidableEq, Repr

/-- What a load leaves: the memory as far as it was written, and the error that stopped it, if one did. -/
structure LoadResult where
  mem : Memory
  error : Option LoadError
  deriving DecidableEq, Repr

/-- The lines of a text; a line ends at a newline character. -/
def splitLines : List Char → List (List Char)
  | [] => [[]]
  | c :: rest =>
    if c = '\n' then [] :: splitLines rest
    else
      match splitLines rest with
      | [] => [[c]]
      | line :: lines => (c :: line) :: lines

/-- White space at both ends goes (R114, D19). -/
def trim (line : List Char) : List Char :=
  ((line.dropWhile Char.isWhitespace).reverse.dropWhile Char.isWhitespace).reverse

/-- A line without its comment and without white space around it (R114). -/
def stripLine (line : List Char) : List Char := trim (line.takeWhile (fun c => c != '#'))

/-- The tokens of a program image: the stripped lines that are not empty (R114). -/
def imageTokens (text : List Char) : List (List Char) :=
  ((splitLines text).map stripLine).filter (fun t => !t.isEmpty)

/-- The value of a base-2 literal of any width, read on from `acc`; none if another character occurs (R114). -/
def binaryValue (acc : Nat) : List Char → Option Nat
  | [] => some acc
  | c :: rest =>
    if c = '0' then binaryValue (2 * acc) rest
    else if c = '1' then binaryValue (2 * acc + 1) rest
    else none

/-- The byte a token stands for; none if it is no base-2 literal or exceeds 255 (R115, D16). -/
def tokenByte (token : List Char) : Option Byte :=
  match token with
  | [] => none
  | _ :: _ =>
    match binaryValue 0 token with
    | some v => if v ≤ 255 then some (BitVec.ofNat 8 v) else none
    | none => none

/-- Writes the tokens from cell `k` on and stops at the first error; what was written stays (R115; log entry 4). -/
def loadTokens (k : Nat) : List (List Char) → Memory → LoadResult
  | [], m => { mem := m, error := none }
  | t :: rest, m =>
    if k ≥ Config.memSize then { mem := m, error := some .programTooLarge }
    else
      match tokenByte t with
      | none => { mem := m, error := some (.malformedProgram k) }
      | some v => loadTokens (k + 1) rest (m.poke k v)

/-- A block the host has brought up, or the error that keeps it from running. -/
structure BootResult where
  block : State
  error : Option LoadError
  deriving DecidableEq, Repr

/-- Reset and then the load of the image in the program argument (R113); without an argument there is no program and no
fallback (R116). -/
def boot (c : Config) (image : Option (List Char)) : BootResult :=
  match image with
  | none => { block := State.resetWith c, error := some .missingProgramArgument }
  | some text =>
    let r := loadTokens 0 (imageTokens text) (State.resetWith c).mem
    { block := { State.resetWith c with mem := r.mem }, error := r.error }

end Sys2Proof.Machine
end

