-- ==== Sys2Proof/Machine/Console.lean ====
section
/-! DEFINITION. What the host makes of a stopped block: the text of the output events (41_register_output.md R80) and the
exit status (60_exceptions.md R101, 70_reset_and_hazards.md R117). Both are outside the block (00_scope.md R5). -/

namespace Sys2Proof.Machine

/-- The decimal digit of a value below 10. -/
def digitChar (d : Nat) : Char := Char.ofNat (48 + d)

/-- A byte as decimal digits with no leading zeros and no sign (R80). -/
def decimalDigits (v : Byte) : List Char :=
  let n := v.toNat
  if n < 10 then [digitChar n]
  else if n < 100 then [digitChar (n / 10), digitChar (n % 10)]
  else [digitChar (n / 100), digitChar (n / 10 % 10), digitChar (n % 10)]

/-- The text on standard output: each event on a line of its own, in program order (R80). -/
def renderOut : List Byte → List Char
  | [] => []
  | v :: rest => decimalDigits v ++ '\n' :: renderOut rest

/-- The exit status of the host process. Its value after an error is any number but 0 (93_implementation_defined.md U7),
so the number is not modelled. -/
inductive ExitStatus where
  | zero
  | nonZero
  deriving DecidableEq, Repr

/-- The exit status a stopped block calls for: 0 after HLT, not 0 after a fault (R101, R117); none while it can step. -/
def State.exitStatus (s : State) : Option ExitStatus :=
  if s.fault.isSome then some .nonZero
  else if s.halted then some .zero
  else none

/-- The exit status after a boot that failed: not 0 for each of the loader's errors (R101). -/
def BootResult.exitStatus (b : BootResult) : Option ExitStatus :=
  match b.error with
  | some _ => some .nonZero
  | none => b.block.exitStatus

end Sys2Proof.Machine
end

