-- ==== Sys2Proof/Machine/Session.lean ====
section
/-! DEFINITION. The block with its external interface (00_scope.md R9): the moves a host may make and when
(70_reset_and_hazards.md R113, R117). The host writes no register and writes no memory once the block has stepped. -/

namespace Sys2Proof.Machine

/-- Where a session stands: the host may still load, or the block has taken a step since reset. -/
inductive Phase where
  | loading
  | running
  deriving DecidableEq, Repr

/-- A move of the host at the block's interface (R9). -/
inductive HostMove where
  /-- The reset input (R110). -/
  | reset
  /-- The load port writes one cell (R115, R117). -/
  | load (addr : Nat) (v : Byte)
  /-- The step control (R64, R117). -/
  | step
  deriving DecidableEq, Repr

/-- A block and the host's view of where it stands. -/
structure Session where
  phase : Phase
  block : State
  deriving DecidableEq, Repr

/-- What a move leads to; none where the host may not make it, or, for a step, where the block has none (R63, R117). -/
def Session.move (c : Config) (x : Session) : HostMove → Option Session
  | .reset => some { phase := .loading, block := State.resetWith c }
  | .load a v =>
    match x.phase with
    | .running => none
    | .loading =>
      match x.block.memWrite a v with
      | .ok b => some { phase := .loading, block := b }
      | .error _ => none
  | .step =>
    match Sys2Proof.Machine.step x.block with
    | .next b => some { phase := .running, block := b }
    | .fault _ => none
    | .refused _ => none

end Sys2Proof.Machine
end

