-- ==== Sys2Proof/Safety.lean ====
section
/-! DEFINITION. The terms claims are stated in: when the block can step, and the invariants its steps keep. -/

namespace Sys2Proof.Machine

/-- The block can take a step: halted = false and fault = none (40_fetch_decode.md R63). -/
abbrev State.Enabled (s : State) : Prop := s.halted = false ∧ s.fault = none

/-- The operand bytes of an instruction that name registers (40_fetch_decode.md R69): byte 1 of LDI, PRN, PUSH and POP, bytes
1 and 2 of MUL. -/
def registerOperands : Instr → List Byte
  | .hlt => []
  | .push r => [r]
  | .pop r => [r]
  | .prn r => [r]
  | .ldi r _ => [r]
  | .mul a b => [a, b]
  | .unrecognized _ => []

/-- Every register operand names a register (R51, R69). -/
abbrev ValidRegisters (i : Instr) : Prop := ∀ b ∈ registerOperands i, b.toNat < 8

/-- The memory is in its canonical form: one list of cells for each content. -/
abbrev State.MemoryCanonical (s : State) : Prop := s.mem.wf = true

/-- The pc takes values 0 to 258 (10_state.md R24). -/
abbrev State.PcBounded (s : State) : Prop := s.pc ≤ 258

/-- A recorded fault is one that the block can raise, as R93 to R96 and R99 have it, in a block that has not halted (90_conflicts.md C7). -/
def State.FaultLegal (s : State) : Prop :=
  ∀ f, s.fault = some f →
    s.halted = false ∧ f.pc = s.pc ∧ f.code = f.kind.code ∧
    ((f.kind = .outOfRange ∧ f.opcode = none ∧ s.pc ≥ 256 ∧ f.detail = .address s.pc) ∨
     (f.kind = .outOfRange ∧ s.pc ∈ [254, 255] ∧ (∃ op, f.opcode = some op) ∧ f.detail = .address 256) ∨
     (f.kind = .invalidRegister ∧ (∃ op, f.opcode = some op) ∧ ∃ b, 8 ≤ b ∧ b ≤ 255 ∧ f.detail = .register b))

end Sys2Proof.Machine
end

