-- ==== Sys2Proof/WellFormed.lean ====
section
/-! DEFINITION. Which terms of Instr stand for instructions of the hardware. Operands are whole bytes and every value of
them is legal (30_encoding.md R51, R55), so the one check is on the byte an unrecognized instruction carries (R54). -/

namespace Sys2Proof

/-- The six opcode bytes of R52, in the order of the table. Written out here from the table, apart from the decoder, so
that the round trip of encoder and decoder compares two readings of it. -/
def recognizedBytes : List Byte := [0x01, 0x45, 0x46, 0x47, 0x82, 0xA2]

/-- The check: an unrecognized instruction carries none of the six opcode bytes (R54). -/
def Instr.wf : Instr → Bool
  | .hlt => true
  | .push _ => true
  | .pop _ => true
  | .prn _ => true
  | .ldi _ _ => true
  | .mul _ _ => true
  | .unrecognized b => !recognizedBytes.contains b

/-- `i` stands for an instruction of the hardware. -/
abbrev Instr.WellFormed (i : Instr) : Prop := i.wf = true

end Sys2Proof
end

