-- ==== Sys2Proof/Certificates/Slice0/Obligations.lean ====
section
/-! DEFINITION. The statements for the provers. Each docstring names the rules of spec/ it formalises. Bytes of memory are
read with `memRead` (R34) and registers with `readX` (R16); `s.Enabled` is R63's condition for a step. -/

open Sys2Proof Sys2Proof.Machine

/-- `s` with a fault record written and nothing else (R28, R99); spelled out here apart from the model's own operation. -/
def Sys2Proof.Machine.State.recording (s : State) (code : Nat) (kind : FaultKind) (op : Option Byte)
    (detail : FaultDetail) : State :=
  { s with fault := some { code := code, kind := kind, pc := s.pc, opcode := op, detail := detail } }

/-! ### Encoding and decoding -/

/-- Decoding the bytes of a well-formed instruction gives the instruction back, with every operand at every value, and
leaves the bytes after it (R49 to R53). -/
def Obligations.DecodeOfEncodeIsTheInstruction : Prop :=
  ∀ (i : Instr) (rest : List Byte), i.WellFormed → decode (encode i ++ rest) = .ok (i, rest)

/-- Whatever decodes is well-formed and was the encoding of what it decodes to (R49 to R54). -/
def Obligations.EncodeOfDecodeIsTheBytes : Prop :=
  ∀ (bytes rest : List Byte) (i : Instr), decode bytes = .ok (i, rest) → i.WellFormed ∧ bytes = encode i ++ rest

/-- R53: the six opcode values decode to their classes and counts, and every other byte is unrecognized. -/
def Obligations.OpcodeMapIsExactlyTheSix : Prop :=
  decodeOpcode 0x01 = (.hlt, 0) ∧ decodeOpcode 0x45 = (.push, 1) ∧ decodeOpcode 0x46 = (.pop, 1) ∧
  decodeOpcode 0x47 = (.prn, 1) ∧ decodeOpcode 0x82 = (.ldi, 2) ∧ decodeOpcode 0xA2 = (.mul, 2) ∧
  ∀ b : Byte, b ≠ 0x01 → b ≠ 0x45 → b ≠ 0x46 → b ≠ 0x47 → b ≠ 0x82 → b ≠ 0xA2 → decodeOpcode b = (.unrecognized, 0)

/-- R49: an instruction is 1, 2 or 3 bytes long, 1 plus the operand count of its opcode, 1 for an unrecognized byte; and
the opcode byte alone decides it: two instructions with one first byte have one length. -/
def Obligations.OpcodeAloneDecidesLength : Prop :=
  ∀ (op : Byte) (tl rest : List Byte) (i : Instr), decode (op :: tl) = .ok (i, rest) →
    i.opcode = op ∧ (op :: tl).length = i.length + rest.length ∧ i.length = 1 + (decodeOpcode op).2 ∧
    (i.length = 1 ∨ i.length = 2 ∨ i.length = 3) ∧
    (recognizedBytes.contains op = false → i.length = 1) ∧
    ∀ (tl' rest' : List Byte) (j : Instr), decode (op :: tl') = .ok (j, rest') → j.length = i.length

/-- R54, R55: no byte value is rejected; decoding fails only where bytes are missing, and names the first one missing. -/
def Obligations.OnlyMissingBytesAreRejected : Prop :=
  ∀ bytes : List Byte,
    (∀ e, decode bytes = .error e ↔
      (bytes = [] ∧ e = .noOpcode) ∨
      ∃ op tl, bytes = op :: tl ∧ tl.length < (decodeOpcode op).2 ∧ e = .missingOperand op (tl.length + 1)) ∧
    ((∃ i rest, decode bytes = .ok (i, rest)) ↔ ∃ op tl, bytes = op :: tl ∧ (decodeOpcode op).2 ≤ tl.length)

/-- R52, R60: words of the table, written out bit by bit, and the instructions they stand for; 0xA0 is no ADD (R58). -/
def Obligations.WrittenWordsDecodeAsTheTableSays : Prop :=
  decode [0b10000010, 0b00000000, 0b00001000] = .ok (.ldi 0 8, []) ∧
  decode [0b10100010, 0b00000000, 0b00000001] = .ok (.mul 0 1, []) ∧
  decode [0b01000101, 0b00000011] = .ok (.push 3, []) ∧
  decode [0b01000110, 0b00000010] = .ok (.pop 2, []) ∧
  decode [0b01000111, 0b11111111] = .ok (.prn 255, []) ∧
  decode [0b00000001] = .ok (.hlt, []) ∧
  decode [0b10100000, 0b00000000, 0b00000001] = .ok (.unrecognized 0xA0, [0, 1])

/-! ### The step -/

/-- R66 to R70: where the bytes at the pc are those of a well-formed instruction, a step that the block can take is that
instruction's meaning in the same state, and nothing is added around it. -/
def Obligations.StepRunsTheDecodedInstruction : Prop :=
  ∀ (s : State) (i : Instr), s.Enabled → i.WellFormed →
    (∀ (k : Nat) (h : k < (encode i).length), s.memRead (s.pc + k) = .ok (encode i)[k]) →
    step s = exec i s

/-- R63: a step answers a next state exactly where halted = false and fault = none; halted and faulted blocks have none. -/
def Obligations.StepsExactlyWhenEnabled : Prop :=
  ∀ s : State,
    ((∃ t, step s = .next t) ↔ s.halted = false ∧ s.fault = none) ∧
    (s.halted = true → step s = .fault .halted) ∧
    (s.halted = false → s.fault ≠ none → step s = .fault .faulted)

/-- R69, R70, R77: every opcode byte, with its operand bytes inside memory, leads to the meaning of one instruction, that of
this opcode and of the bytes after it. Its meaning always answers a next state, and that is a retirement, with the pc advanced,
exactly where the register operands are valid; otherwise it is the entry of a fault. -/
def Obligations.EveryOpcodeByteIsDispatched : Prop :=
  ∀ (s : State) (op : Byte), s.Enabled → s.memRead s.pc = .ok op → s.pc + (decodeOpcode op).2 < 256 →
    ∃ i : Instr, i.WellFormed ∧ i.opcode = op ∧ i.operands.length = (decodeOpcode op).2 ∧
      (∀ (k : Nat) (h : k < i.operands.length), s.memRead (s.pc + 1 + k) = .ok i.operands[k]) ∧
      step s = exec i s ∧
      ∃ t, exec i s = .next t ∧ (t.fault = none ↔ ValidRegisters i) ∧
        (ValidRegisters i → t.pc = s.pc + 1 + i.operands.length)

/-- R66: an opcode fetch outside memory raises OutOfRange with detail = pc and opcode = none. -/
def Obligations.OpcodeFetchOutsideMemoryFaults : Prop :=
  ∀ s : State, s.Enabled → 256 ≤ s.pc →
    step s = .next (s.recording 1 .outOfRange none (.address s.pc))

/-- R68, R94: an operand fetch that runs past address 255 raises OutOfRange at address 256 with the opcode recorded, and
an opcode without operands at address 255 reads none and does not. -/
def Obligations.OperandFetchOutsideMemoryFaults : Prop :=
  ∀ (s : State) (op : Byte), s.Enabled → s.memRead s.pc = .ok op →
    (256 ≤ s.pc + (decodeOpcode op).2 →
      step s = .next (s.recording 1 .outOfRange (some op) (.address 256))) ∧
    (s.pc + (decodeOpcode op).2 < 256 →
      ∃ t, step s = .next t ∧ ∀ f, t.fault = some f → f.kind ≠ .outOfRange)

/-- R102: a step raises at most one fault, the first one met in the order opcode fetch, operand fetch at pc+1, operand fetch
at pc+2, register check of byte 1, register check of byte 2 (MUL only). -/
def Obligations.StepRaisesTheFirstFaultInOrder : Prop :=
  ∀ s : State, s.Enabled →
    ∃ t, step s = .next t ∧
      t.fault =
        (let op := s.mem.peek s.pc
         let b1 := s.mem.peek (s.pc + 1)
         let b2 := s.mem.peek (s.pc + 2)
         let n := (decodeOpcode op).2
         if 256 ≤ s.pc then (s.recording 1 .outOfRange none (.address s.pc)).fault
         else if 1 ≤ n ∧ 256 ≤ s.pc + 1 then (s.recording 1 .outOfRange (some op) (.address (s.pc + 1))).fault
         else if 2 ≤ n ∧ 256 ≤ s.pc + 2 then (s.recording 1 .outOfRange (some op) (.address (s.pc + 2))).fault
         else if 1 ≤ n ∧ 8 ≤ b1.toNat then (s.recording 2 .invalidRegister (some op) (.register b1.toNat)).fault
         else if op = 0xA2 ∧ 8 ≤ b2.toNat then (s.recording 2 .invalidRegister (some op) (.register b2.toNat)).fault
         else none)

/-- R71, R99, R100: a step that ends with a fault set has written nothing else, the record names the faulting pc, the
number of its kind and the opcode if one was fetched, and the block takes no further step. -/
def Obligations.FaultingStepWritesOnlyTheRecord : Prop :=
  ∀ s t : State, step s = .next t → t.fault ≠ none →
    step t = .fault .faulted ∧
    ∃ f : FaultRecord, t = { s with fault := some f } ∧ f.pc = s.pc ∧
      ((f.kind = .outOfRange ∧ f.code = 1) ∨ (f.kind = .invalidRegister ∧ f.code = 2)) ∧
      (256 ≤ s.pc → f.opcode = none) ∧
      ∀ op, s.memRead s.pc = .ok op → f.opcode = some op

/-- R73: a retired instruction ends with pc + 1 + n, exactly: +3 for LDI and MUL, +2 for PRN, PUSH and POP, +1 for HLT and
every unrecognized byte. -/
def Obligations.RetiredStepAdvancesPcPastItsBytes : Prop :=
  ∀ (s t : State) (op : Byte), step s = .next t → t.fault = none → s.memRead s.pc = .ok op →
    t.pc = s.pc + 1 + (decodeOpcode op).2 ∧
    ((op = 0x82 ∨ op = 0xA2) → t.pc = s.pc + 3) ∧
    ((op = 0x47 ∨ op = 0x45 ∨ op = 0x46) → t.pc = s.pc + 2) ∧
    (op = 0x01 → t.pc = s.pc + 1) ∧
    (recognizedBytes.contains op = false → t.pc = s.pc + 1)

/-- R75, R118: from any state the block stops, after at most one step more than there are addresses from the pc to 256; where
it stops by HLT, all its steps retired and there are at most as many as those addresses. (Log entry 7: R75 counts the steps
that retire, and P6 of 95_test_vectors.md counts the faulting one after them.) -/
def Obligations.EveryRunStops : Prop :=
  ∀ s : State, ∃ (k : Nat) (t : State),
    k ≤ (256 - s.pc) + 1 ∧ core.run k s = .next t ∧ (t.halted = true ∨ t.fault ≠ none) ∧
    (t.fault = none → k ≤ 256 - s.pc)

/-! ### What every step keeps -/

/-- The canonical form of the memory is kept by every step. -/
def Obligations.StepKeepsMemoryCanonical : Prop :=
  ∀ s t : State, s.MemoryCanonical → step s = .next t → t.MemoryCanonical

/-- R24: a pc of at most 258 stays at most 258, with no wrap: a step never makes it smaller. -/
def Obligations.StepKeepsPcBounded : Prop :=
  ∀ s t : State, s.PcBounded → step s = .next t → t.PcBounded ∧ s.pc ≤ t.pc

/-- R93 to R96, R99, 90_conflicts.md C7: a recorded fault stays one the block can raise: its code is its kind's, its pc is
the block's, its kind is never UnsupportedOperation, and the block has not halted. -/
def Obligations.StepKeepsFaultLegal : Prop :=
  ∀ s t : State, s.FaultLegal → step s = .next t → t.FaultLegal

/-- The three invariants hold after reset, whatever STACK_BASE is. -/
def Obligations.ResetMeetsTheInvariants : Prop :=
  ∀ c : Config, (State.resetWith c).MemoryCanonical ∧ (State.resetWith c).PcBounded ∧ (State.resetWith c).FaultLegal

/-- R26: a step ends halted exactly where it ran HLT; nothing clears halted, and a halted block takes no step. -/
def Obligations.OnlyHltSetsHalted : Prop :=
  (∀ s t : State, step s = .next t → (t.halted = true ↔ s.memRead s.pc = .ok 0x01)) ∧
  (∀ (i : Instr) (s t : State), exec i s = .next t → s.halted = true → t.halted = true) ∧
  ∀ s : State, s.halted = true → step s = .fault .halted

/-- R30, R80: a step leaves the output alone or, running PRN, appends the value of the register it names at the end. -/
def Obligations.OnlyPrnAppendsToOutput : Prop :=
  ∀ s t : State, step s = .next t →
    t.out = s.out ∨
    (s.memRead s.pc = .ok 0x47 ∧
      ∃ b v, s.memRead (s.pc + 1) = .ok b ∧ s.readX b.toNat = .ok v ∧ t.out = s.out ++ [v])

/-- R30: the output is never read: with any other trace in its place the block does the same and emits the same. -/
def Obligations.OutputIsNeverRead : Prop :=
  ∀ (s t : State) (o : List Byte), step s = .next t →
    ∃ d, t.out = s.out ++ d ∧ step { s with out := o } = .next { t with out := o ++ d }

/-- R37, R43: only PUSH writes memory: a step at any other opcode leaves every byte of it. -/
def Obligations.OnlyPushWritesMemory : Prop :=
  ∀ s t : State, step s = .next t → s.memRead s.pc ≠ .ok 0x45 → ∀ a, t.memRead a = s.memRead a

/-- R46: the byte a PUSH writes over the next opcode is what the next step fetches, for every register (PUSH R7 writes the new
sp, R88) and every byte: it reads back at the new pc, the next step runs the instruction it begins with the operand bytes that
lie after it, and where those run past memory the next step faults with that byte as its opcode. -/
def Obligations.PushedByteIsFetchedByTheNextStep : Prop :=
  ∀ (s : State) (r sp x : Byte), s.Enabled → s.memRead s.pc = .ok 0x45 → s.memRead (s.pc + 1) = .ok r →
    s.readX 7 = .ok sp → (sp - 1).toNat = s.pc + 2 → s.readX r.toNat = .ok x →
    ∃ t v, v = (if r = 7 then sp - 1 else x) ∧ step s = .next t ∧ t.pc = s.pc + 2 ∧ t.memRead t.pc = .ok v ∧
      (∀ i : Instr, i.WellFormed → i.opcode = v →
        (∀ (k : Nat) (h : k < i.operands.length), t.memRead (t.pc + 1 + k) = .ok i.operands[k]) →
        step t = exec i t) ∧
      (256 ≤ t.pc + (decodeOpcode v).2 →
        step t = .next (t.recording 1 .outOfRange (some v) (.address 256)))

/-- R84, R96: no step records UnsupportedOperation. -/
def Obligations.UnsupportedOperationIsNeverRaised : Prop :=
  ∀ s t : State, step s = .next t → ∀ f, t.fault = some f → f.kind ≠ .unsupportedOperation

/-! ### Registers, memory and ALU -/

/-- R17: a register write keeps the value modulo 256, a later read gives it back, and nothing else changes. -/
def Obligations.RegisterWriteKeepsTheValueModulo256 : Prop :=
  ∀ (s : State) (i : Nat) (v : Int), i < 8 →
    ∃ t, s.writeX i v = .ok t ∧ (∃ b, t.readX i = .ok b ∧ (b.toNat : Int) = v % 256) ∧
      (∀ j, j ≠ i → t.readX j = s.readX j) ∧ t = { s with regs := t.regs }

/-- R18, R95: an index of 8 or more raises InvalidRegister with itself as detail, on a read and on a write; and a register
operand byte of 8 or more, unmasked, makes its instruction record that fault and change nothing else. -/
def Obligations.InvalidRegisterOperandIsRaised : Prop :=
  ∀ s : State,
    (∀ (i : Nat) (v : Int), 8 ≤ i →
      s.readX i = .error (.invalidRegister i) ∧ s.writeX i v = .error (.invalidRegister i)) ∧
    (∀ b : Byte, 8 ≤ b.toNat → ∀ i : Instr,
      (i = .push b ∨ i = .pop b ∨ i = .prn b ∨ (∃ v, i = .ldi b v) ∨ (∃ c, i = .mul b c) ∨
        (∃ a : Byte, a.toNat < 8 ∧ i = .mul a b)) →
      exec i s = .next (s.recording 2 .invalidRegister (some i.opcode) (.register b.toNat)))

/-- R34 to R36: a read or a write at 256 or above raises OutOfRange with the address; inside, a write changes the one cell,
a read gives its content, and cell 255 is inside. -/
def Obligations.MemoryAccessReadsAndWritesOneCell : Prop :=
  ∀ (s : State) (a : Nat) (v : Byte),
    (256 ≤ a → s.memRead a = .error (.outOfRange a) ∧ s.memWrite a v = .error (.outOfRange a)) ∧
    (a < 256 → (∃ b, s.memRead a = .ok b) ∧
      ∃ t, s.memWrite a v = .ok t ∧ t.memRead a = .ok v ∧ (∀ c, c ≠ a → t.memRead c = s.memRead c) ∧
        t = { s with mem := t.mem })

/-- R82: the exact sum or product modulo 256; any other tag raises UnsupportedOperation with the tag. -/
def Obligations.AluWrapsModulo256 : Prop :=
  ∀ d s : Byte,
    (∃ r, alu .add d s = .ok r ∧ r.toNat = (d.toNat + s.toNat) % 256) ∧
    (∃ r, alu .mul d s = .ok r ∧ r.toNat = (d.toNat * s.toNat) % 256) ∧
    ∀ n, alu (.other n) d s = .error (.unsupportedOperation (.other n))

/-- R110: the state after reset, for every STACK_BASE: R0 to R6 zero, R7 the STACK_BASE, pc 0, not halted, no fault, every
cell 0 and no output. -/
def Obligations.ResetLeavesTheTable : Prop :=
  ∀ c : Config,
    (∀ i, i < 7 → (State.resetWith c).readX i = .ok 0) ∧ (State.resetWith c).readX 7 = .ok c.stackBase ∧
    (State.resetWith c).pc = 0 ∧ (State.resetWith c).halted = false ∧ (State.resetWith c).fault = none ∧
    (∀ a, a < 256 → (State.resetWith c).memRead a = .ok 0) ∧ (State.resetWith c).out = []

/-! ### What each instruction does: it completes, with this result -/

/-- R78: LDI stores its immediate byte as it is and advances the pc by 3. -/
def Obligations.LdiLoadsItsImmediate : Prop :=
  ∀ (s : State) (r imm : Byte), r.toNat < 8 →
    ∃ t, exec (.ldi r imm) s = .next t ∧ t.readX r.toNat = .ok imm ∧ t.pc = s.pc + 3 ∧ t.fault = s.fault

/-- R79, R80: PRN appends the register's byte to the output and advances the pc by 2. -/
def Obligations.PrnEmitsItsRegister : Prop :=
  ∀ (s : State) (r v : Byte), s.readX r.toNat = .ok v →
    ∃ t, exec (.prn r) s = .next t ∧ t.out = s.out ++ [v] ∧ t.pc = s.pc + 2 ∧ t.fault = s.fault

/-- R83, R86: MUL leaves the product of the two old values modulo 256 in regA, the square where they are one register, and
advances the pc by 3. -/
def Obligations.MulLeavesTheProductModulo256 : Prop :=
  ∀ (s : State) (a b x y : Byte), s.readX a.toNat = .ok x → s.readX b.toNat = .ok y →
    ∃ t z, exec (.mul a b) s = .next t ∧ t.readX a.toNat = .ok z ∧ z.toNat = (x.toNat * y.toNat) % 256 ∧
      t.pc = s.pc + 3 ∧ t.fault = s.fault

/-- R21, R88: PUSH decrements sp modulo 256 and stores there the register read after it, so that PUSH R7 stores the new sp;
the pc advances by 2. -/
def Obligations.PushStoresBelowTheStackPointer : Prop :=
  ∀ (s : State) (r sp x : Byte), s.readX 7 = .ok sp → s.readX r.toNat = .ok x →
    ∃ t, exec (.push r) s = .next t ∧ t.readX 7 = .ok (sp - 1) ∧
      t.memRead (sp - 1).toNat = .ok (if r = 7 then sp - 1 else x) ∧ t.pc = s.pc + 2 ∧ t.fault = s.fault

/-- R21, R89: POP loads the byte at sp and then increments sp modulo 256, the loaded one where the register is R7; the pc
advances by 2. -/
def Obligations.PopLoadsFromTheStackPointer : Prop :=
  ∀ (s : State) (r sp v : Byte), r.toNat < 8 → s.readX 7 = .ok sp → s.memRead sp.toNat = .ok v →
    ∃ t, exec (.pop r) s = .next t ∧ t.readX r.toNat = .ok (if r = 7 then v + 1 else v) ∧
      t.readX 7 = .ok (if r = 7 then v + 1 else sp + 1) ∧ t.pc = s.pc + 2 ∧ t.fault = s.fault

/-- R91: HLT sets halted, advances the pc by 1, and does nothing else. -/
def Obligations.HltHaltsPastItself : Prop :=
  ∀ s : State, exec .hlt s = .next { s with halted := true, pc := s.pc + 1 }

/-- R92: an unrecognized byte advances the pc by 1 and does nothing else. That this holds also of the ill-formed terms that
carry one of the six opcode bytes is the model's choice (log entry 6) and no rule of the spec; no step reaches them. -/
def Obligations.UnrecognizedByteIsSkipped : Prop :=
  ∀ (s : State) (b : Byte), exec (.unrecognized b) s = .next { s with pc := s.pc + 1 }

/-- R90: PUSH Rr and then POP Rr leaves every register as it was, R7 too, and the cell below sp holds what was pushed. -/
def Obligations.PushThenPopRestoresTheRegisters : Prop :=
  ∀ (s : State) (r sp x : Byte), s.readX 7 = .ok sp → s.readX r.toNat = .ok x →
    ∃ t u, exec (.push r) s = .next t ∧ exec (.pop r) t = .next u ∧ (∀ j, u.readX j = s.readX j) ∧
      u.memRead (sp - 1).toNat = .ok (if r = 7 then sp - 1 else x)

/-! ### Frames: what each instruction leaves unchanged, on every operand -/

/-- LDI changes its register, the pc and, on an invalid register operand alone, the fault. -/
def Obligations.LdiFrame : Prop :=
  ∀ (s t : State) (r imm : Byte), exec (.ldi r imm) s = .next t →
    (∀ j, j ≠ r.toNat → t.readX j = s.readX j) ∧ t.halted = s.halted ∧ t.out = s.out ∧
    (∀ a, t.memRead a = s.memRead a) ∧ (r.toNat < 8 → t.fault = s.fault)

/-- MUL changes regA, the pc and, on an invalid register operand alone, the fault; regB is unchanged unless it is regA. -/
def Obligations.MulFrame : Prop :=
  ∀ (s t : State) (a b : Byte), exec (.mul a b) s = .next t →
    (∀ j, j ≠ a.toNat → t.readX j = s.readX j) ∧ t.halted = s.halted ∧ t.out = s.out ∧
    (∀ c, t.memRead c = s.memRead c) ∧ (a.toNat < 8 → b.toNat < 8 → t.fault = s.fault)

/-- PRN changes the output, the pc and, on an invalid register operand alone, the fault; then it emits nothing. -/
def Obligations.PrnFrame : Prop :=
  ∀ (s t : State) (r : Byte), exec (.prn r) s = .next t →
    (∀ j, t.readX j = s.readX j) ∧ t.halted = s.halted ∧ (8 ≤ r.toNat → t.out = s.out) ∧
    (∀ a, t.memRead a = s.memRead a) ∧ (r.toNat < 8 → t.fault = s.fault)

/-- PUSH changes R7, the byte at the decremented sp, the pc and, on an invalid register operand alone, the fault; then R7 and
that byte are unchanged too. The address is the one the meaning stores to. -/
def Obligations.PushFrame : Prop :=
  ∀ (s t : State) (r : Byte), exec (.push r) s = .next t →
    (∀ j, j ≠ 7 → t.readX j = s.readX j) ∧ t.halted = s.halted ∧ t.out = s.out ∧
    (∀ a, s.preDecrement.sp.toNat = a → ∀ c, c ≠ a → t.memRead c = s.memRead c) ∧
    (r.toNat < 8 → t.fault = s.fault) ∧
    (8 ≤ r.toNat → (∀ j, t.readX j = s.readX j) ∧ ∀ a, t.memRead a = s.memRead a)

/-- POP changes its register, R7, the pc and, on an invalid register operand alone, the fault; the byte it reads stays. -/
def Obligations.PopFrame : Prop :=
  ∀ (s t : State) (r : Byte), exec (.pop r) s = .next t →
    (∀ j, j ≠ r.toNat → j ≠ 7 → t.readX j = s.readX j) ∧ t.halted = s.halted ∧ t.out = s.out ∧
    (∀ a, t.memRead a = s.memRead a) ∧ (r.toNat < 8 → t.fault = s.fault) ∧
    (8 ≤ r.toNat → ∀ j, t.readX j = s.readX j)

/-- HLT and the unrecognized bytes change no register, no memory, no output and no fault; only HLT changes halted (R91, R92).
That this holds also of the ill-formed unrecognized terms that carry one of the six opcode bytes is the model's choice (log
entry 6) and no rule of the spec. -/
def Obligations.HltAndUnrecognizedFrame : Prop :=
  ∀ (s t : State) (i : Instr), (i = .hlt ∨ ∃ b, i = .unrecognized b) → exec i s = .next t →
    (∀ j, t.readX j = s.readX j) ∧ t.out = s.out ∧ t.fault = s.fault ∧ (∀ a, t.memRead a = s.memRead a) ∧
    (i ≠ .hlt → t.halted = s.halted)

/-! ### Whole rules: the step at each opcode, its faults in order and its effect -/

/-- R78, whole: LDI at the pc. -/
def Obligations.StepAtLdi : Prop :=
  ∀ s : State, s.Enabled →
    (256 ≤ s.pc → step s = .next (s.recording 1 .outOfRange none (.address s.pc))) ∧
    (s.memRead s.pc = .ok 0x82 →
      (256 ≤ s.pc + 2 → step s = .next (s.recording 1 .outOfRange (some 0x82) (.address 256))) ∧
      ∀ b1 b2 : Byte, s.memRead (s.pc + 1) = .ok b1 → s.memRead (s.pc + 2) = .ok b2 →
        (8 ≤ b1.toNat → step s = .next (s.recording 2 .invalidRegister (some 0x82) (.register b1.toNat))) ∧
        (b1.toNat < 8 → ∃ t, step s = .next t ∧ t = { s with regs := t.regs, pc := s.pc + 3 } ∧
          t.readX b1.toNat = .ok b2 ∧ ∀ j, j ≠ b1.toNat → t.readX j = s.readX j))

/-- R79, whole: PRN at the pc. -/
def Obligations.StepAtPrn : Prop :=
  ∀ s : State, s.Enabled →
    (256 ≤ s.pc → step s = .next (s.recording 1 .outOfRange none (.address s.pc))) ∧
    (s.memRead s.pc = .ok 0x47 →
      (256 ≤ s.pc + 1 → step s = .next (s.recording 1 .outOfRange (some 0x47) (.address 256))) ∧
      ∀ b1 : Byte, s.memRead (s.pc + 1) = .ok b1 →
        (8 ≤ b1.toNat → step s = .next (s.recording 2 .invalidRegister (some 0x47) (.register b1.toNat))) ∧
        ∀ v, s.readX b1.toNat = .ok v → step s = .next { s with out := s.out ++ [v], pc := s.pc + 2 })

/-- R86, whole: MUL at the pc. -/
def Obligations.StepAtMul : Prop :=
  ∀ s : State, s.Enabled →
    (256 ≤ s.pc → step s = .next (s.recording 1 .outOfRange none (.address s.pc))) ∧
    (s.memRead s.pc = .ok 0xA2 →
      (256 ≤ s.pc + 2 → step s = .next (s.recording 1 .outOfRange (some 0xA2) (.address 256))) ∧
      ∀ b1 b2 : Byte, s.memRead (s.pc + 1) = .ok b1 → s.memRead (s.pc + 2) = .ok b2 →
        (8 ≤ b1.toNat → step s = .next (s.recording 2 .invalidRegister (some 0xA2) (.register b1.toNat))) ∧
        (b1.toNat < 8 → 8 ≤ b2.toNat →
          step s = .next (s.recording 2 .invalidRegister (some 0xA2) (.register b2.toNat))) ∧
        ∀ x y, s.readX b1.toNat = .ok x → s.readX b2.toNat = .ok y →
          ∃ t z, step s = .next t ∧ t = { s with regs := t.regs, pc := s.pc + 3 } ∧ t.readX b1.toNat = .ok z ∧
            z.toNat = (x.toNat * y.toNat) % 256 ∧ ∀ j, j ≠ b1.toNat → t.readX j = s.readX j)

/-- R88, whole: PUSH at the pc. -/
def Obligations.StepAtPush : Prop :=
  ∀ s : State, s.Enabled →
    (256 ≤ s.pc → step s = .next (s.recording 1 .outOfRange none (.address s.pc))) ∧
    (s.memRead s.pc = .ok 0x45 →
      (256 ≤ s.pc + 1 → step s = .next (s.recording 1 .outOfRange (some 0x45) (.address 256))) ∧
      ∀ b1 : Byte, s.memRead (s.pc + 1) = .ok b1 →
        (8 ≤ b1.toNat → step s = .next (s.recording 2 .invalidRegister (some 0x45) (.register b1.toNat))) ∧
        ∀ sp x, s.readX 7 = .ok sp → s.readX b1.toNat = .ok x →
          ∃ t, step s = .next t ∧ t = { s with regs := t.regs, mem := t.mem, pc := s.pc + 2 } ∧
            t.readX 7 = .ok (sp - 1) ∧ (∀ j, j ≠ 7 → t.readX j = s.readX j) ∧
            t.memRead (sp - 1).toNat = .ok (if b1 = 7 then sp - 1 else x) ∧
            ∀ a, a ≠ (sp - 1).toNat → t.memRead a = s.memRead a)

/-- R89, whole: POP at the pc. -/
def Obligations.StepAtPop : Prop :=
  ∀ s : State, s.Enabled →
    (256 ≤ s.pc → step s = .next (s.recording 1 .outOfRange none (.address s.pc))) ∧
    (s.memRead s.pc = .ok 0x46 →
      (256 ≤ s.pc + 1 → step s = .next (s.recording 1 .outOfRange (some 0x46) (.address 256))) ∧
      ∀ b1 : Byte, s.memRead (s.pc + 1) = .ok b1 →
        (8 ≤ b1.toNat → step s = .next (s.recording 2 .invalidRegister (some 0x46) (.register b1.toNat))) ∧
        (b1.toNat < 8 → ∀ sp v, s.readX 7 = .ok sp → s.memRead sp.toNat = .ok v →
          ∃ t, step s = .next t ∧ t = { s with regs := t.regs, pc := s.pc + 2 } ∧
            t.readX b1.toNat = .ok (if b1 = 7 then v + 1 else v) ∧
            t.readX 7 = .ok (if b1 = 7 then v + 1 else sp + 1) ∧
            ∀ j, j ≠ b1.toNat → j ≠ 7 → t.readX j = s.readX j))

/-- R91, whole: HLT at the pc, at 255 too, since no operand is read; no step after it, exit status 0, and no other way to
halted = true. -/
def Obligations.StepAtHlt : Prop :=
  ∀ s : State, s.Enabled →
    (256 ≤ s.pc → step s = .next (s.recording 1 .outOfRange none (.address s.pc))) ∧
    (s.memRead s.pc = .ok 0x01 →
      ∃ t, step s = .next t ∧ t = { s with halted := true, pc := s.pc + 1 } ∧ step t = .fault .halted ∧
        t.exitStatus = some .zero) ∧
    ∀ t, step s = .next t → t.halted = true → s.memRead s.pc = .ok 0x01

/-- R92, whole: an unrecognized byte at the pc, at 255 too: no fault and no effect but the pc advance by 1. -/
def Obligations.StepAtUnrecognizedByte : Prop :=
  ∀ s : State, s.Enabled →
    (256 ≤ s.pc → step s = .next (s.recording 1 .outOfRange none (.address s.pc))) ∧
    ∀ b : Byte, s.memRead s.pc = .ok b → recognizedBytes.contains b = false →
      step s = .next { s with pc := s.pc + 1 }

/-! ### The host's side of the block (outside it by R5, with its contract in 70_reset_and_hazards.md) -/

/-- R47, R115: an image of at most 256 good tokens fills the cells from 0 on and leaves the others 0; a bad token among the
first 256 is MalformedProgram, and more than 256 tokens are ProgramTooLarge; cells already written keep their values. That
the first error in token order is the one reported, so that a 257th token is too many whatever it or a later one holds and a
bad token among the first 256 is malformed whatever the length, and that all 256 cells are written by the time
ProgramTooLarge is reported, is the model's choice (log entry 4, DESIGN CHOICE) and no rule of the spec: R115 gives the errors
without ordering them. -/
def Obligations.LoaderWritesTokensUntilTheFirstError : Prop :=
  ∀ (good : List (List Char)) (bytes : List Byte), good.map tokenByte = bytes.map some → bytes.length ≤ 256 →
    ∃ m : Memory,
      (∀ (k : Nat) (h : k < bytes.length), m.peek k = bytes[k]) ∧ (∀ a, bytes.length ≤ a → m.peek a = 0) ∧
      m.wf = true ∧
      loadTokens 0 good { cells := [] } = { mem := m, error := none } ∧
      (∀ bad rest, tokenByte bad = none → bytes.length < 256 →
        loadTokens 0 (good ++ bad :: rest) { cells := [] } =
          { mem := m, error := some (.malformedProgram bytes.length) }) ∧
      ∀ extra rest, bytes.length = 256 →
        loadTokens 0 (good ++ extra :: rest) { cells := [] } = { mem := m, error := some .programTooLarge }

/-- R114, R115: a token of the characters 0 and 1, at least one, is the byte it spells in base 2, whatever its width; a value
above 255 and any other character are refused. -/
def Obligations.TokenIsABaseTwoByte : Prop :=
  (∀ bits : List Bool, bits ≠ [] →
    tokenByte (bits.map (fun b => if b then '1' else '0')) =
      (let v := bits.foldl (fun n b => 2 * n + b.toNat) 0
       if v ≤ 255 then some (BitVec.ofNat 8 v) else none)) ∧
  ∀ (token : List Char) (c : Char), c ∈ token → c ≠ '0' → c ≠ '1' → tokenByte token = none

/-- R9, R117: the host loads a cell only before the block has stepped, its load changes that cell alone, and a step is one
step of the block; reset leads to the state of R31 from anywhere. -/
def Obligations.HostMovesKeepToTheirPhases : Prop :=
  ∀ (c : Config) (x : Session),
    x.move c .reset = some { phase := .loading, block := State.resetWith c } ∧
    (∀ a v, x.phase = .running → x.move c (.load a v) = none) ∧
    (∀ a v, x.phase = .loading → a < 256 →
      ∃ b, x.move c (.load a v) = some { phase := .loading, block := b } ∧ b.memRead a = .ok v ∧
        (∀ d, d ≠ a → b.memRead d = x.block.memRead d) ∧ b = { x.block with mem := b.mem }) ∧
    (∀ y, x.move c .step = some y → y.phase = .running ∧ step x.block = .next y.block) ∧
    (x.block.Enabled → ∃ y, x.move c .step = some y)

/-- R101, R117, R118: a block that can step calls for no exit status; one stopped by HLT for 0; one stopped by a fault for
one that is not 0. That a block both halted and faulted, a state no run reaches (90_conflicts.md C7), counts as faulted is the
model's choice (log entry 10) and no rule of the spec. -/
def Obligations.ExitStatusTellsHowTheRunEnded : Prop :=
  ∀ s : State,
    (s.Enabled ↔ s.exitStatus = none) ∧
    (s.fault = none → s.halted = true → s.exitStatus = some .zero) ∧
    (s.fault ≠ none → s.exitStatus = some .nonZero)
end

