-- ==== Sys2Proof/Laws/Memory.lean ====
section
/-! SUPPORT. The laws of the memory: a read after a write, the canonical form kept by every operation, and equal contents
in canonical form are equal data. -/

namespace Sys2Proof.Machine

/-! ### One list of cells -/

theorem cellAt_insertCell_self (c : Host.Cell) :
    ∀ l : List Host.Cell, (∀ d ∈ l, d.1 ≠ c.1) → cellAt c.1 (insertCell c l) = c.2
  | [], _ => by simp [insertCell, cellAt]
  | d :: rest, h => by
    have hd : d.1 ≠ c.1 := h d (by simp)
    unfold insertCell
    split
    · simp [cellAt]
    · simpa [cellAt, hd] using cellAt_insertCell_self c rest (fun e he => h e (by simp [he]))

theorem cellAt_insertCell_of_ne (c : Host.Cell) {b : Nat} (hb : b ≠ c.1) :
    ∀ l : List Host.Cell, cellAt b (insertCell c l) = cellAt b l
  | [] => by simp [insertCell, cellAt, hb.symm]
  | d :: rest => by
    unfold insertCell
    split
    · simp [cellAt, hb.symm]
    · simp [cellAt, cellAt_insertCell_of_ne c hb rest]

theorem cellAt_erase_self (a : Nat) :
    ∀ l : List Host.Cell, cellAt a (l.filter (fun c => c.1 != a)) = Memory.unlisted
  | [] => rfl
  | d :: rest => by
    by_cases h : d.1 = a
    · simpa [h] using cellAt_erase_self a rest
    · simpa [h, cellAt] using cellAt_erase_self a rest

theorem cellAt_erase_of_ne {a b : Nat} (hb : b ≠ a) :
    ∀ l : List Host.Cell, cellAt b (l.filter (fun c => c.1 != a)) = cellAt b l
  | [] => rfl
  | d :: rest => by
    by_cases h : d.1 = a
    · have hne : ¬ a = b := fun e => hb e.symm
      simpa [h, cellAt, hne] using cellAt_erase_of_ne hb rest
    · simp [h, cellAt, cellAt_erase_of_ne hb rest]

theorem mem_insertCell {c d : Host.Cell} : ∀ {l : List Host.Cell}, d ∈ insertCell c l ↔ d = c ∨ d ∈ l
  | [] => by simp [insertCell]
  | e :: rest => by
    unfold insertCell
    split
    · simp
    · simp only [List.mem_cons, mem_insertCell (l := rest)]
      tauto

/-- What the canonical form of a list says of its first cell and of the rest. -/
theorem cellsWf_cons {c : Host.Cell} {l : List Host.Cell} :
    cellsWf (c :: l) = true ↔
      c.1 < Config.memSize ∧ c.2 ≠ Memory.unlisted ∧ (∀ d ∈ l, c.1 < d.1) ∧ cellsWf l = true := by
  simp only [cellsWf, Bool.and_eq_true, decide_eq_true_eq, bne_iff_ne, List.all_eq_true, and_assoc]

theorem cellsWf_erase (a : Nat) : ∀ l : List Host.Cell, cellsWf l = true → cellsWf (l.filter (fun c => c.1 != a)) = true
  | [], _ => rfl
  | d :: rest, h => by
    obtain ⟨h1, h2, h3, h4⟩ := cellsWf_cons.mp h
    have ih := cellsWf_erase a rest h4
    by_cases hd : d.1 = a
    · simpa [hd] using ih
    · have : List.filter (fun c : Host.Cell => c.1 != a) (d :: rest) = d :: rest.filter (fun c => c.1 != a) := by
        simp [hd]
      rw [this]
      exact cellsWf_cons.mpr ⟨h1, h2, fun e he => h3 e (List.mem_of_mem_filter he), ih⟩

theorem cellsWf_insertCell {c : Host.Cell} (hc : c.1 < Config.memSize) (hv : c.2 ≠ Memory.unlisted) :
    ∀ l : List Host.Cell, (∀ d ∈ l, d.1 ≠ c.1) → cellsWf l = true → cellsWf (insertCell c l) = true
  | [], _, _ => cellsWf_cons.mpr ⟨hc, hv, by simp, rfl⟩
  | d :: rest, hne, h => by
    obtain ⟨h1, h2, h3, h4⟩ := cellsWf_cons.mp h
    unfold insertCell
    split
    case isTrue hlt =>
      refine cellsWf_cons.mpr ⟨hc, hv, fun e he => ?_, h⟩
      rcases List.mem_cons.mp he with rfl | he
      · exact hlt
      · exact hlt.trans (h3 e he)
    case isFalse hge =>
      refine cellsWf_cons.mpr ⟨h1, h2, fun e he => ?_,
        cellsWf_insertCell hc hv rest (fun e he => hne e (by simp [he])) h4⟩
      rcases mem_insertCell.mp he with rfl | he
      · have : d.1 ≠ e.1 := hne d (by simp)
        omega
      · exact h3 e he

theorem cellAt_of_all_gt {a : Nat} : ∀ l : List Host.Cell, (∀ d ∈ l, a < d.1) → cellAt a l = Memory.unlisted
  | [], _ => rfl
  | d :: rest, h => by
    have hd : d.1 ≠ a := (h d (by simp)).ne'
    simpa [cellAt, hd] using cellAt_of_all_gt rest (fun e he => h e (by simp [he]))

/-- Two lists in canonical form with the same content are the same list. -/
theorem cells_ext : ∀ l m : List Host.Cell, cellsWf l = true → cellsWf m = true → (∀ a, cellAt a l = cellAt a m) → l = m
  | [], [], _, _, _ => rfl
  | [], d :: m, _, hm, h => by
    obtain ⟨_, h2, _, _⟩ := cellsWf_cons.mp hm
    exact absurd (by simpa [cellAt] using (h d.1).symm) h2
  | c :: l, [], hl, _, h => by
    obtain ⟨_, h2, _, _⟩ := cellsWf_cons.mp hl
    exact absurd (by simpa [cellAt] using h c.1) h2
  | c :: l, d :: m, hl, hm, h => by
    obtain ⟨_, c2, c3, c4⟩ := cellsWf_cons.mp hl
    obtain ⟨_, d2, d3, d4⟩ := cellsWf_cons.mp hm
    have haddr : c.1 = d.1 := by
      rcases Nat.lt_trichotomy c.1 d.1 with hlt | heq | hgt
      · have := h c.1
        rw [cellAt_of_all_gt (a := c.1) (d :: m)
          (fun e he => by rcases List.mem_cons.mp he with rfl | he; exacts [hlt, hlt.trans (d3 e he)])] at this
        exact absurd (by simpa [cellAt] using this) c2
      · exact heq
      · have := h d.1
        rw [cellAt_of_all_gt (a := d.1) (c :: l)
          (fun e he => by rcases List.mem_cons.mp he with rfl | he; exacts [hgt, hgt.trans (c3 e he)])] at this
        exact absurd (by simpa [cellAt] using this.symm) d2
    have hval : c.2 = d.2 := by simpa [cellAt, haddr] using h c.1
    have hrest : l = m := cells_ext l m c4 d4 fun a => by
      by_cases ha : c.1 = a
      · rw [cellAt_of_all_gt l (ha ▸ c3), cellAt_of_all_gt m (fun e he => by have := d3 e he; omega)]
      · have := h a
        simpa [cellAt, ha, haddr ▸ ha] using this
    rw [Prod.ext haddr hval, hrest]

/-! ### The memory -/

/-- A read after a write: the cell written holds the value, every other cell keeps its own. No premise on the form of the
memory is needed. -/
theorem peek_poke (m : Memory) (a b : Nat) (v : Byte) : (m.poke a v).peek b = if b = a then v else m.peek b := by
  by_cases hb : b = a
  · subst hb
    simp only [Memory.poke, Memory.peek, if_true]
    split
    case isTrue h => simpa [h] using cellAt_erase_self b m.cells
    case isFalse => exact cellAt_insertCell_self (b, v) _ (by simp)
  · simp only [Memory.poke, Memory.peek, if_neg hb]
    split
    · exact cellAt_erase_of_ne hb _
    · exact (cellAt_insertCell_of_ne (a, v) hb _).trans (cellAt_erase_of_ne hb _)

/-- A write keeps the canonical form. -/
theorem wf_poke {m : Memory} {a : Nat} (ha : a < Config.memSize) (v : Byte) (h : m.wf = true) : (m.poke a v).wf = true := by
  have he := cellsWf_erase a m.cells h
  unfold Memory.poke Memory.wf
  dsimp only
  split
  · exact he
  case isFalse hv => exact cellsWf_insertCell ha hv _ (by simp) he

/-- Placing bytes keeps the canonical form. -/
theorem wf_place : ∀ (l : List Byte) (m : Memory) (a : Nat), m.wf = true → (m.place a l).wf = true
  | [], _, _, h => h
  | b :: rest, m, a, h => by
    unfold Memory.place
    split
    case isTrue ha => exact wf_place rest _ _ (wf_poke ha b h)
    case isFalse => exact wf_place rest _ _ h

/-- A memory in canonical form is what its cells read as. -/
theorem memory_ext {m n : Memory} (hm : m.wf = true) (hn : n.wf = true) (h : ∀ a, m.peek a = n.peek a) : m = n := by
  cases m; cases n
  exact congrArg Memory.mk (cells_ext _ _ hm hn h)

/-- Nothing listed is in canonical form. -/
theorem wf_empty : (Memory.mk []).wf = true := rfl

/-- Reset's memory is in canonical form. -/
theorem wf_resetWith (c : Config) : (State.resetWith c).mem.wf = true := rfl

end Sys2Proof.Machine
end

