-- ==== Sys2Proof/Laws/State.lean ====
section
/-! SUPPORT. What each update of State does to each field: one lemma per field, true by unfolding, so that no later proof
unfolds a record update. -/

namespace Sys2Proof.Machine

/-! ### setReg -/

@[simp] theorem setReg_regs (s : State) (r : Fin Config.numRegs) (v : Int) : (s.setReg r v).regs = s.regs.set r.val (narrow v) r.isLt := rfl
@[simp] theorem setReg_pc (s : State) (r : Fin Config.numRegs) (v : Int) : (s.setReg r v).pc = s.pc := rfl
@[simp] theorem setReg_halted (s : State) (r : Fin Config.numRegs) (v : Int) : (s.setReg r v).halted = s.halted := rfl
@[simp] theorem setReg_fault (s : State) (r : Fin Config.numRegs) (v : Int) : (s.setReg r v).fault = s.fault := rfl
@[simp] theorem setReg_mem (s : State) (r : Fin Config.numRegs) (v : Int) : (s.setReg r v).mem = s.mem := rfl
@[simp] theorem setReg_out (s : State) (r : Fin Config.numRegs) (v : Int) : (s.setReg r v).out = s.out := rfl

/-! ### setSp -/

@[simp] theorem setSp_regs (s : State) (v : Int) : (s.setSp v).regs = s.regs.set 7 (narrow v) := rfl
@[simp] theorem setSp_pc (s : State) (v : Int) : (s.setSp v).pc = s.pc := rfl
@[simp] theorem setSp_halted (s : State) (v : Int) : (s.setSp v).halted = s.halted := rfl
@[simp] theorem setSp_fault (s : State) (v : Int) : (s.setSp v).fault = s.fault := rfl
@[simp] theorem setSp_mem (s : State) (v : Int) : (s.setSp v).mem = s.mem := rfl
@[simp] theorem setSp_out (s : State) (v : Int) : (s.setSp v).out = s.out := rfl

/-! ### emit -/

@[simp] theorem emit_regs (s : State) (v : Byte) : (s.emit v).regs = s.regs := rfl
@[simp] theorem emit_pc (s : State) (v : Byte) : (s.emit v).pc = s.pc := rfl
@[simp] theorem emit_halted (s : State) (v : Byte) : (s.emit v).halted = s.halted := rfl
@[simp] theorem emit_fault (s : State) (v : Byte) : (s.emit v).fault = s.fault := rfl
@[simp] theorem emit_mem (s : State) (v : Byte) : (s.emit v).mem = s.mem := rfl
@[simp] theorem emit_out (s : State) (v : Byte) : (s.emit v).out = s.out ++ [v] := rfl

/-! ### takeFault -/

@[simp] theorem takeFault_regs (s : State) (op : Option Byte) (c : Cause) : (s.takeFault op c).regs = s.regs := rfl
@[simp] theorem takeFault_pc (s : State) (op : Option Byte) (c : Cause) : (s.takeFault op c).pc = s.pc := rfl
@[simp] theorem takeFault_halted (s : State) (op : Option Byte) (c : Cause) : (s.takeFault op c).halted = s.halted := rfl
@[simp] theorem takeFault_fault (s : State) (op : Option Byte) (c : Cause) : (s.takeFault op c).fault = some { code := c.kind.code, kind := c.kind, pc := s.pc, opcode := op, detail := c.detail } := rfl
@[simp] theorem takeFault_mem (s : State) (op : Option Byte) (c : Cause) : (s.takeFault op c).mem = s.mem := rfl
@[simp] theorem takeFault_out (s : State) (op : Option Byte) (c : Cause) : (s.takeFault op c).out = s.out := rfl

/-! ### advance -/

@[simp] theorem advance_regs (s : State) (n : Nat) : (s.advance n).regs = s.regs := rfl
@[simp] theorem advance_pc (s : State) (n : Nat) : (s.advance n).pc = s.pc + 1 + n := rfl
@[simp] theorem advance_halted (s : State) (n : Nat) : (s.advance n).halted = s.halted := rfl
@[simp] theorem advance_fault (s : State) (n : Nat) : (s.advance n).fault = s.fault := rfl
@[simp] theorem advance_mem (s : State) (n : Nat) : (s.advance n).mem = s.mem := rfl
@[simp] theorem advance_out (s : State) (n : Nat) : (s.advance n).out = s.out := rfl

/-! ### preDecrement -/

@[simp] theorem preDecrement_regs (s : State) : (s.preDecrement).regs = s.regs.set 7 (narrow (s.sp.toNat - 1)) := rfl
@[simp] theorem preDecrement_pc (s : State) : (s.preDecrement).pc = s.pc := rfl
@[simp] theorem preDecrement_halted (s : State) : (s.preDecrement).halted = s.halted := rfl
@[simp] theorem preDecrement_fault (s : State) : (s.preDecrement).fault = s.fault := rfl
@[simp] theorem preDecrement_mem (s : State) : (s.preDecrement).mem = s.mem := rfl
@[simp] theorem preDecrement_out (s : State) : (s.preDecrement).out = s.out := rfl

/-! ### postIncrement -/

@[simp] theorem postIncrement_regs (s : State) : (s.postIncrement).regs = s.regs.set 7 (narrow (s.sp.toNat + 1)) := rfl
@[simp] theorem postIncrement_pc (s : State) : (s.postIncrement).pc = s.pc := rfl
@[simp] theorem postIncrement_halted (s : State) : (s.postIncrement).halted = s.halted := rfl
@[simp] theorem postIncrement_fault (s : State) : (s.postIncrement).fault = s.fault := rfl
@[simp] theorem postIncrement_mem (s : State) : (s.postIncrement).mem = s.mem := rfl
@[simp] theorem postIncrement_out (s : State) : (s.postIncrement).out = s.out := rfl

/-! ### withMem -/

@[simp] theorem withMem_regs (s : State) (m : Memory) : (s.withMem m).regs = s.regs := rfl
@[simp] theorem withMem_pc (s : State) (m : Memory) : (s.withMem m).pc = s.pc := rfl
@[simp] theorem withMem_halted (s : State) (m : Memory) : (s.withMem m).halted = s.halted := rfl
@[simp] theorem withMem_fault (s : State) (m : Memory) : (s.withMem m).fault = s.fault := rfl
@[simp] theorem withMem_mem (s : State) (m : Memory) : (s.withMem m).mem = m := rfl
@[simp] theorem withMem_out (s : State) (m : Memory) : (s.withMem m).out = s.out := rfl

/-! ### Registers seen through the updates -/

/-- A register after a write: the written one holds the value modulo 256, every other keeps its own (R17). -/
theorem reg_setReg (s : State) (r q : Fin Config.numRegs) (v : Int) :
    (s.setReg r v).reg q = if q = r then narrow v else s.reg q := by
  simp only [State.reg, State.setReg, Vector.getElem_set, Fin.ext_iff, eq_comm]

@[simp] theorem reg_setReg_self (s : State) (r : Fin Config.numRegs) (v : Int) : (s.setReg r v).reg r = narrow v := by
  simp [reg_setReg]

theorem reg_setReg_of_ne (s : State) {r q : Fin Config.numRegs} (h : q ≠ r) (v : Int) :
    (s.setReg r v).reg q = s.reg q := by
  simp [reg_setReg, h]

@[simp] theorem reg_emit (s : State) (v : Byte) (r : Fin Config.numRegs) : (s.emit v).reg r = s.reg r := rfl
@[simp] theorem reg_takeFault (s : State) (op : Option Byte) (c : Cause) (r : Fin Config.numRegs) :
    (s.takeFault op c).reg r = s.reg r := rfl
@[simp] theorem reg_advance (s : State) (n : Nat) (r : Fin Config.numRegs) : (s.advance n).reg r = s.reg r := rfl

@[simp] theorem reg_withMem (s : State) (m : Memory) (r : Fin Config.numRegs) : (s.withMem m).reg r = s.reg r := rfl

@[simp] theorem sp_setSp (s : State) (v : Int) : (s.setSp v).sp = narrow v := reg_setReg_self s _ v

/-- An exact value is kept modulo 256 (R17). -/
theorem narrow_toNat (v : Int) : ((narrow v).toNat : Int) = v % 256 := by
  simp only [narrow, BitVec.toNat_ofInt]
  have h : 0 ≤ v % ((2 ^ 8 : Nat) : Int) := Int.emod_nonneg _ (by norm_num)
  rw [Int.toNat_of_nonneg h]
  norm_num

/-- A byte is kept as it is. -/
@[simp] theorem narrow_toNat_self (b : Byte) : narrow b.toNat = b := by
  simp [narrow]

end Sys2Proof.Machine
end

