-- ==== Sys2Proof/Laws/Ops.lean ====
section
/-! SUPPORT. One lemma per shared operation that says everything it can do; later proofs cite it and do not unfold the
operation. -/

namespace Sys2Proof.Machine

/-! ### Memory access -/

theorem memRead_of_lt {s : State} {a : Nat} (h : a < 256) : s.memRead a = .ok (s.mem.peek a) := by
  simp [State.memRead, show ¬ 256 ≤ a by omega]

theorem memRead_of_ge {s : State} {a : Nat} (h : 256 ≤ a) : s.memRead a = .error (.outOfRange a) := by
  simp [State.memRead, h]

theorem memWrite_of_lt {s : State} {a : Nat} (h : a < 256) (v : Byte) :
    s.memWrite a v = .ok (s.withMem (s.mem.poke a v)) := by
  simp [State.memWrite, show ¬ 256 ≤ a by omega]

theorem memWrite_of_ge {s : State} {a : Nat} (h : 256 ≤ a) (v : Byte) : s.memWrite a v = .error (.outOfRange a) := by
  simp [State.memWrite, h]

/-- A read that gives a byte is inside memory and gives the cell's content. -/
theorem memRead_ok {s : State} {a : Nat} {b : Byte} (h : s.memRead a = .ok b) : a < 256 ∧ s.mem.peek a = b := by
  rcases Nat.lt_or_ge a 256 with ha | ha
  · rw [memRead_of_lt ha] at h
    injection h with h
    exact ⟨ha, h⟩
  · rw [memRead_of_ge ha] at h
    cases h

/-- A read looks at the memory alone. -/
theorem memRead_congr {s t : State} (h : s.mem = t.mem) (a : Nat) : s.memRead a = t.memRead a := by
  simp [State.memRead, h]

@[simp] theorem memRead_setReg (s : State) (r : Fin Config.numRegs) (v : Int) (a : Nat) :
    (s.setReg r v).memRead a = s.memRead a := rfl
@[simp] theorem memRead_preDecrement (s : State) (a : Nat) : s.preDecrement.memRead a = s.memRead a := rfl
@[simp] theorem memRead_postIncrement (s : State) (a : Nat) : s.postIncrement.memRead a = s.memRead a := rfl
@[simp] theorem memRead_emit (s : State) (v : Byte) (a : Nat) : (s.emit v).memRead a = s.memRead a := rfl
@[simp] theorem memRead_advance (s : State) (n a : Nat) : (s.advance n).memRead a = s.memRead a := rfl
@[simp] theorem memRead_takeFault (s : State) (op : Option Byte) (c : Cause) (a : Nat) :
    (s.takeFault op c).memRead a = s.memRead a := rfl

/-- A read after a write: the cell written gives the value, every other address what it gave (R34, R35). -/
theorem memRead_withMem_poke (s : State) {a : Nat} (h : a < 256) (v : Byte) (b : Nat) :
    (s.withMem (s.mem.poke a v)).memRead b = if b = a then .ok v else s.memRead b := by
  by_cases hb : b = a
  · subst hb
    rw [memRead_of_lt h, if_pos rfl, withMem_mem, peek_poke, if_pos rfl]
  · simp [State.memRead, peek_poke, hb]

/-! ### Registers -/

theorem checkIndex_of_lt {i : Nat} (h : i < 8) : checkIndex i = .ok ⟨i, h⟩ := by
  simp [checkIndex, h]

theorem checkIndex_of_ge {i : Nat} (h : 8 ≤ i) : checkIndex i = .error (.invalidRegister i) := by
  simp [checkIndex, show ¬ i < 8 by omega]

theorem readX_of_lt {s : State} {i : Nat} (h : i < 8) : s.readX i = .ok (s.reg ⟨i, h⟩) := by
  simp [State.readX, checkIndex_of_lt h]

theorem readX_of_ge {s : State} {i : Nat} (h : 8 ≤ i) : s.readX i = .error (.invalidRegister i) := by
  simp [State.readX, checkIndex_of_ge h]

theorem writeX_of_lt {s : State} {i : Nat} (h : i < 8) (v : Int) : s.writeX i v = .ok (s.setReg ⟨i, h⟩ v) := by
  simp [State.writeX, checkIndex_of_lt h]

theorem writeX_of_ge {s : State} {i : Nat} (h : 8 ≤ i) (v : Int) : s.writeX i v = .error (.invalidRegister i) := by
  simp [State.writeX, checkIndex_of_ge h]

/-- A register read that gives a byte has an index below 8 and gives that register's content. -/
theorem readX_ok {s : State} {i : Nat} {x : Byte} (h : s.readX i = .ok x) : ∃ hi : i < 8, s.reg ⟨i, hi⟩ = x := by
  rcases Nat.lt_or_ge i 8 with hi | hi
  · rw [readX_of_lt hi] at h
    injection h with h
    exact ⟨hi, h⟩
  · rw [readX_of_ge hi] at h
    cases h

/-- A register read looks at the registers alone. -/
theorem readX_congr {s t : State} (h : s.regs = t.regs) (i : Nat) : s.readX i = t.readX i := by
  rcases Nat.lt_or_ge i 8 with hi | hi
  · simp [readX_of_lt hi, State.reg, h]
  · rw [readX_of_ge hi, readX_of_ge hi]

/-- A register read after a register write. -/
theorem readX_setReg (s : State) (r : Fin Config.numRegs) (v : Int) (i : Nat) :
    (s.setReg r v).readX i = if i = r.val then .ok (narrow v) else s.readX i := by
  rcases Nat.lt_or_ge i 8 with hi | hi
  · rw [readX_of_lt hi, readX_of_lt hi, reg_setReg]
    by_cases h : i = r.val <;> simp [h, Fin.ext_iff]
  · have : i ≠ r.val := by have : r.val < 8 := r.isLt; omega
    rw [readX_of_ge hi, readX_of_ge hi, if_neg this]

@[simp] theorem readX_advance (s : State) (n i : Nat) : (s.advance n).readX i = s.readX i := rfl
@[simp] theorem readX_emit (s : State) (v : Byte) (i : Nat) : (s.emit v).readX i = s.readX i := rfl
@[simp] theorem readX_takeFault (s : State) (op : Option Byte) (c : Cause) (i : Nat) :
    (s.takeFault op c).readX i = s.readX i := rfl
@[simp] theorem readX_withMem (s : State) (m : Memory) (i : Nat) : (s.withMem m).readX i = s.readX i := rfl

/-- sp is x[7] (R20). -/
theorem readX_sp (s : State) : s.readX 7 = .ok s.sp := readX_of_lt (by omega)

theorem readX_setSp (s : State) (v : Int) (i : Nat) :
    (s.setSp v).readX i = if i = 7 then .ok (narrow v) else s.readX i := readX_setReg s Config.spIndex v i

/-! ### Operands -/

theorem checkOperand_of_lt {b : Byte} (h : b.toNat < 8) : checkOperand b = .ok () := by
  simp [checkOperand, h]

theorem checkOperand_of_ge {b : Byte} (h : 8 ≤ b.toNat) : checkOperand b = .error (.invalidRegister b.toNat) := by
  simp [checkOperand, show ¬ b.toNat < 8 by omega]

theorem sp_preDecrement (s : State) : s.preDecrement.sp = s.sp - 1 := by
  unfold State.preDecrement
  rw [sp_setSp]
  apply BitVec.eq_of_toNat_eq
  have h : ((narrow ((s.sp.toNat : Int) - 1)).toNat : Int) = _ := narrow_toNat _
  have := s.sp.isLt
  have h1 : (1 : Byte).toNat = 1 := rfl
  rw [BitVec.toNat_sub, h1]
  omega

theorem sp_postIncrement (s : State) : s.postIncrement.sp = s.sp + 1 := by
  unfold State.postIncrement
  rw [sp_setSp]
  apply BitVec.eq_of_toNat_eq
  have h : ((narrow ((s.sp.toNat : Int) + 1)).toNat : Int) = _ := narrow_toNat _
  have := s.sp.isLt
  have h1 : (1 : Byte).toNat = 1 := rfl
  rw [BitVec.toNat_add, h1]
  omega

theorem readX_preDecrement (s : State) (i : Nat) :
    s.preDecrement.readX i = if i = 7 then .ok (s.sp - 1) else s.readX i := by
  by_cases h : i = 7
  · simp [h, readX_sp, sp_preDecrement]
  · simp [State.preDecrement, readX_setSp, h]

theorem readX_postIncrement (s : State) (i : Nat) :
    s.postIncrement.readX i = if i = 7 then .ok (s.sp + 1) else s.readX i := by
  by_cases h : i = 7
  · simp [h, readX_sp, sp_postIncrement]
  · simp [State.postIncrement, readX_setSp, h]

/-! ### The ALU -/

theorem aluApply_mul {s : State} {d e : Nat} (hd : d < 8) (he : e < 8) :
    s.aluApply .mul d e = .ok (s.setReg ⟨d, hd⟩ ((s.reg ⟨d, hd⟩).toNat * (s.reg ⟨e, he⟩).toNat)) := by
  simp only [State.aluApply, readX_of_lt hd, readX_of_lt he, alu, writeX_of_lt hd, bind, Except.bind]
  simp [State.setReg]

/-! ### How an instruction ends -/

@[simp] theorem conclude_ok (i : Instr) (s t : State) : conclude i s (.ok t) = .next (t.advance i.operandCount) := rfl

@[simp] theorem conclude_error (i : Instr) (s : State) (c : Cause) :
    conclude i s (.error c) = .next (s.takeFault (some i.opcode) c) := rfl

/-- An instruction always ends in a next state: its effect retired, or a fault taken in the state before it. -/
theorem conclude_cases (i : Instr) (s : State) (e : Except Cause State) :
    (∃ t, e = .ok t ∧ conclude i s e = .next (t.advance i.operandCount)) ∨
    (∃ c, e = .error c ∧ conclude i s e = .next (s.takeFault (some i.opcode) c)) := by
  cases e with
  | ok t => exact .inl ⟨t, rfl, rfl⟩
  | error c => exact .inr ⟨c, rfl, rfl⟩

end Sys2Proof.Machine
end

