-- ==== Sys2Proof/Laws/Decode.lean ====
section
/-! SUPPORT. The decoder class by class, and the fetch: where it fails and what it reads. -/

namespace Sys2Proof

/-- A byte that is none of the six opcodes is unrecognized and takes no operand (R54). -/
theorem decodeOpcode_unrecognized {b : Byte} (h : recognizedBytes.contains b = false) :
    decodeOpcode b = (.unrecognized, 0) := by
  simp only [recognizedBytes, List.contains_eq_mem, List.mem_cons, List.not_mem_nil, or_false, decide_eq_false_iff_not,
    not_or] at h
  obtain ⟨h1, h2, h3, h4, h5, h6⟩ := h
  rw [decodeOpcode, if_neg h1, if_neg h2, if_neg h3, if_neg h4, if_neg h5, if_neg h6]

/-- The seven ways an opcode byte decodes (R53). -/
theorem decodeOpcode_cases (b : Byte) :
    (b = 0x01 ∧ decodeOpcode b = (.hlt, 0)) ∨ (b = 0x45 ∧ decodeOpcode b = (.push, 1)) ∨
    (b = 0x46 ∧ decodeOpcode b = (.pop, 1)) ∨ (b = 0x47 ∧ decodeOpcode b = (.prn, 1)) ∨
    (b = 0x82 ∧ decodeOpcode b = (.ldi, 2)) ∨ (b = 0xA2 ∧ decodeOpcode b = (.mul, 2)) ∨
    (recognizedBytes.contains b = false ∧ decodeOpcode b = (.unrecognized, 0)) := by
  cases h : recognizedBytes.contains b with
  | false => simp [decodeOpcode_unrecognized h]
  | true =>
    simp only [recognizedBytes, List.contains_eq_mem, List.mem_cons, List.not_mem_nil, or_false, decide_eq_true_eq] at h
    rcases h with rfl | rfl | rfl | rfl | rfl | rfl <;> simp [decodeOpcode]

namespace Machine

/-- A fetch outside memory fails at the opcode (R66). -/
theorem fetch_outside {s : State} (h : 256 ≤ s.pc) :
    s.fetch = .error { opcode := none, cause := .outOfRange s.pc } := by
  simp [State.fetch, decodeWith, State.fetchByte, memRead_of_ge h, bind, Except.bind]

theorem fetchByte_of_lt {s : State} {op : Option Byte} {k : Nat} (h : s.pc + k < 256) :
    s.fetchByte op k = .ok (s.mem.peek (s.pc + k)) := by
  simp [State.fetchByte, memRead_of_lt h]

theorem fetchByte_of_ge {s : State} {op : Option Byte} {k : Nat} (h : 256 ≤ s.pc + k) :
    s.fetchByte op k = .error { opcode := op, cause := .outOfRange (s.pc + k) } := by
  simp [State.fetchByte, memRead_of_ge h]

/-- An instruction with all its bytes inside memory is fetched as its opcode's class and its operand bytes (R66 to R68). -/
theorem fetch_inside {s : State} {op : Byte} (hop : s.mem.peek s.pc = op)
    (h : s.pc + (decodeOpcode op).2 < 256) :
    s.fetch = .ok
      (match (decodeOpcode op).1 with
      | .hlt => .hlt
      | .push => .push (s.mem.peek (s.pc + 1))
      | .pop => .pop (s.mem.peek (s.pc + 1))
      | .prn => .prn (s.mem.peek (s.pc + 1))
      | .ldi => .ldi (s.mem.peek (s.pc + 1)) (s.mem.peek (s.pc + 2))
      | .mul => .mul (s.mem.peek (s.pc + 1)) (s.mem.peek (s.pc + 2))
      | .unrecognized => .unrecognized op) := by
  have h0 : s.fetchByte none 0 = .ok op := by rw [fetchByte_of_lt (by omega), Nat.add_zero, hop]
  simp only [State.fetch, decodeWith, h0, bind, Except.bind]
  rcases decodeOpcode_cases op with ⟨_, e⟩ | ⟨_, e⟩ | ⟨_, e⟩ | ⟨_, e⟩ | ⟨_, e⟩ | ⟨_, e⟩ | ⟨_, e⟩ <;>
    rw [e] at h <;> simp only [e, pure, Except.pure] <;>
    first
      | rfl
      | rw [fetchByte_of_lt (k := 1) (by omega), fetchByte_of_lt (k := 2) (by omega)]
      | rw [fetchByte_of_lt (k := 1) (by omega)]

/-- An instruction that runs past the end of memory fails at its first operand byte outside, address 256 (R68). -/
theorem fetch_truncated {s : State} {op : Byte} (hpc : s.pc < 256) (hop : s.mem.peek s.pc = op)
    (h : 256 ≤ s.pc + (decodeOpcode op).2) :
    s.fetch = .error { opcode := some op, cause := .outOfRange 256 } := by
  have h0 : s.fetchByte none 0 = .ok op := by rw [fetchByte_of_lt (by omega), Nat.add_zero, hop]
  have one : s.pc = 255 → s.fetchByte (some op) 1 = .error { opcode := some op, cause := .outOfRange 256 } := by
    intro e
    rw [fetchByte_of_ge (by omega), e]
  have two : s.pc = 254 → s.fetchByte (some op) 2 = .error { opcode := some op, cause := .outOfRange 256 } := by
    intro e
    rw [fetchByte_of_ge (by omega), e]
  simp only [State.fetch, decodeWith, h0, bind, Except.bind]
  rcases decodeOpcode_cases op with ⟨_, e⟩ | ⟨_, e⟩ | ⟨_, e⟩ | ⟨_, e⟩ | ⟨_, e⟩ | ⟨_, e⟩ | ⟨_, e⟩ <;>
    rw [e] at h <;> simp only [e] <;> dsimp only at h
  case inl | inr.inr.inr.inr.inr.inr => omega
  case inr.inl | inr.inr.inl | inr.inr.inr.inl => rw [one (by omega)]
  all_goals
    rcases (by omega : s.pc = 255 ∨ s.pc = 254) with e' | e'
    · rw [one e']
    · rw [fetchByte_of_lt (by omega)]; simp only []; rw [two e']

end Machine

end Sys2Proof
end

