-- ==== Sys2Proof/Laws/Meanings.lean ====
section
/-! SUPPORT. What each instruction does, once, as an equation per case of its operands; proofs about instructions cite these
and do not unfold the meanings. -/

namespace Sys2Proof.Machine

variable {s : State} {b b1 b2 : Byte}

theorem exec_hlt : exec .hlt s = .next (State.advance { s with halted := true } 0) := rfl

theorem exec_unrecognized : exec (.unrecognized b) s = .next (s.advance 0) := rfl

theorem exec_ldi (h : b1.toNat < 8) :
    exec (.ldi b1 b2) s = .next ((s.setReg ⟨b1.toNat, h⟩ b2.toNat).advance 2) := by
  simp [exec, execLdi, checkOperand_of_lt h, writeX_of_lt h, immValue, bind, Except.bind, Instr.operandCount]

theorem exec_ldi_invalid (h : 8 ≤ b1.toNat) :
    exec (.ldi b1 b2) s = .next (s.takeFault (some 0x82) (.invalidRegister b1.toNat)) := by
  simp [exec, execLdi, checkOperand_of_ge h, bind, Except.bind, Instr.opcode]

theorem exec_prn (h : b1.toNat < 8) : exec (.prn b1) s = .next ((s.emit (s.reg ⟨b1.toNat, h⟩)).advance 1) := by
  simp [exec, execPrn, checkOperand_of_lt h, readX_of_lt h, bind, Except.bind, pure, Except.pure, Instr.operandCount]

theorem exec_prn_invalid (h : 8 ≤ b1.toNat) :
    exec (.prn b1) s = .next (s.takeFault (some 0x47) (.invalidRegister b1.toNat)) := by
  simp [exec, execPrn, checkOperand_of_ge h, bind, Except.bind, Instr.opcode]

theorem exec_mul (h1 : b1.toNat < 8) (h2 : b2.toNat < 8) :
    exec (.mul b1 b2) s =
      .next ((s.setReg ⟨b1.toNat, h1⟩ ((s.reg ⟨b1.toNat, h1⟩).toNat * (s.reg ⟨b2.toNat, h2⟩).toNat)).advance 2) := by
  simp [exec, execMul, checkOperand_of_lt h1, checkOperand_of_lt h2, aluApply_mul h1 h2, bind, Except.bind,
    Instr.operandCount]

theorem exec_mul_invalid_first (h : 8 ≤ b1.toNat) :
    exec (.mul b1 b2) s = .next (s.takeFault (some 0xA2) (.invalidRegister b1.toNat)) := by
  simp [exec, execMul, checkOperand_of_ge h, bind, Except.bind, Instr.opcode]

theorem exec_mul_invalid_second (h1 : b1.toNat < 8) (h2 : 8 ≤ b2.toNat) :
    exec (.mul b1 b2) s = .next (s.takeFault (some 0xA2) (.invalidRegister b2.toNat)) := by
  simp [exec, execMul, checkOperand_of_lt h1, checkOperand_of_ge h2, bind, Except.bind, Instr.opcode]

theorem exec_push (h : b1.toNat < 8) :
    exec (.push b1) s =
      .next ((s.preDecrement.withMem
        (s.preDecrement.mem.poke s.preDecrement.sp.toNat (s.preDecrement.reg ⟨b1.toNat, h⟩))).advance 1) := by
  have hsp : s.preDecrement.sp.toNat < 256 := s.preDecrement.sp.isLt
  simp [exec, execPush, checkOperand_of_lt h, readX_of_lt h, memWrite_of_lt hsp, bind, Except.bind,
    Instr.operandCount]

theorem exec_push_invalid (h : 8 ≤ b1.toNat) :
    exec (.push b1) s = .next (s.takeFault (some 0x45) (.invalidRegister b1.toNat)) := by
  simp [exec, execPush, checkOperand_of_ge h, bind, Except.bind, Instr.opcode]

theorem exec_pop (h : b1.toNat < 8) :
    exec (.pop b1) s =
      .next ((s.setReg ⟨b1.toNat, h⟩ (s.mem.peek s.sp.toNat).toNat).postIncrement.advance 1) := by
  have hsp : s.sp.toNat < 256 := s.sp.isLt
  simp [exec, execPop, checkOperand_of_lt h, writeX_of_lt h, memRead_of_lt hsp, bind, Except.bind, pure, Except.pure,
    Instr.operandCount]

theorem exec_pop_invalid (h : 8 ≤ b1.toNat) :
    exec (.pop b1) s = .next (s.takeFault (some 0x46) (.invalidRegister b1.toNat)) := by
  simp [exec, execPop, checkOperand_of_ge h, bind, Except.bind, Instr.opcode]

end Sys2Proof.Machine
end

