-- ==== Sys2Proof/Laws/PerInstr.lean ====
section
/-! SUPPORT. A statement about every instruction as syntax: the decoder's operand count of its opcode is the number of its
operand bytes (30_encoding.md R49, R50, R52). One lemma per constructor. -/

namespace Sys2Proof.Laws.OperandBytes

/-- The opcode of a well-formed instruction announces as many operand bytes as the encoder writes after it. -/
def Statement (i : Instr) : Prop :=
  i.WellFormed → (decodeOpcode i.opcode).2 = i.operands.length ∧ i.operands.length = i.operandCount

theorem hlt : Statement .hlt := fun _ => ⟨rfl, rfl⟩
theorem push (reg : Byte) : Statement (.push reg) := fun _ => ⟨rfl, rfl⟩
theorem pop (reg : Byte) : Statement (.pop reg) := fun _ => ⟨rfl, rfl⟩
theorem prn (reg : Byte) : Statement (.prn reg) := fun _ => ⟨rfl, rfl⟩
theorem ldi (reg imm : Byte) : Statement (.ldi reg imm) := fun _ => ⟨rfl, rfl⟩
theorem mul (regA regB : Byte) : Statement (.mul regA regB) := fun _ => ⟨rfl, rfl⟩
theorem unrecognized (byte : Byte) : Statement (.unrecognized byte) := fun h => by
  have hb : recognizedBytes.contains byte = false := by simpa [Instr.WellFormed, Instr.wf] using h
  exact ⟨by simp [Instr.opcode, Instr.operands, decodeOpcode_unrecognized hb], rfl⟩

end Sys2Proof.Laws.OperandBytes
end

