-- ==== Sys2Proof/Laws/Step.lean ====
section
/-! SUPPORT. What a step can do, said once: the inversion lemma of `exec` and of `step`. Invariants and whole-machine rules are
derived from these. -/

namespace Sys2Proof.Machine

/-- The instruction whose opcode is `op` and whose operand bytes are `b1` and `b2` as far as it has them. -/
def instrOf (op b1 b2 : Byte) : Instr :=
  match (decodeOpcode op).1 with
  | .hlt => .hlt
  | .push => .push b1
  | .pop => .pop b1
  | .prn => .prn b1
  | .ldi => .ldi b1 b2
  | .mul => .mul b1 b2
  | .unrecognized => .unrecognized op

theorem instrOf_opcode (op b1 b2 : Byte) : (instrOf op b1 b2).opcode = op := by
  rcases decodeOpcode_cases op with ⟨h, e⟩ | ⟨h, e⟩ | ⟨h, e⟩ | ⟨h, e⟩ | ⟨h, e⟩ | ⟨h, e⟩ | ⟨h, e⟩ <;>
    simp [instrOf, e, Instr.opcode] <;> exact h.symm

theorem instrOf_operandCount (op b1 b2 : Byte) : (instrOf op b1 b2).operandCount = (decodeOpcode op).2 := by
  rcases decodeOpcode_cases op with ⟨_, e⟩ | ⟨_, e⟩ | ⟨_, e⟩ | ⟨_, e⟩ | ⟨_, e⟩ | ⟨_, e⟩ | ⟨_, e⟩ <;>
    simp [instrOf, e, Instr.operandCount]

theorem instrOf_wellFormed (op b1 b2 : Byte) : (instrOf op b1 b2).WellFormed := by
  rcases decodeOpcode_cases op with ⟨h, e⟩ | ⟨h, e⟩ | ⟨h, e⟩ | ⟨h, e⟩ | ⟨h, e⟩ | ⟨h, e⟩ | ⟨h, e⟩ <;>
    simp [instrOf, e, Instr.WellFormed, Instr.wf]
  simpa using h

/-- The instruction in memory at the pc. -/
def State.current (s : State) : Instr := instrOf (s.mem.peek s.pc) (s.mem.peek (s.pc + 1)) (s.mem.peek (s.pc + 2))

/-- What an instruction can do: retire with the pc advanced and no fault taken, or take InvalidRegister on an operand byte
of 8 or more in the state before it. -/
theorem exec_cases (i : Instr) (s : State) :
    (∃ t, exec i s = .next t ∧ t.pc = s.pc + 1 + i.operandCount ∧ t.fault = s.fault) ∨
    (∃ b : Byte, 8 ≤ b.toNat ∧ b ∈ i.operands ∧
      exec i s = .next (s.takeFault (some i.opcode) (.invalidRegister b.toNat))) := by
  cases i with
  | hlt => exact .inl ⟨_, exec_hlt, rfl, rfl⟩
  | unrecognized b => exact .inl ⟨_, exec_unrecognized, rfl, rfl⟩
  | push b =>
    rcases Nat.lt_or_ge b.toNat 8 with h | h
    · exact .inl ⟨_, exec_push h, rfl, rfl⟩
    · exact .inr ⟨b, h, by simp [Instr.operands], exec_push_invalid h⟩
  | pop b =>
    rcases Nat.lt_or_ge b.toNat 8 with h | h
    · exact .inl ⟨_, exec_pop h, rfl, rfl⟩
    · exact .inr ⟨b, h, by simp [Instr.operands], exec_pop_invalid h⟩
  | prn b =>
    rcases Nat.lt_or_ge b.toNat 8 with h | h
    · exact .inl ⟨_, exec_prn h, rfl, rfl⟩
    · exact .inr ⟨b, h, by simp [Instr.operands], exec_prn_invalid h⟩
  | ldi b v =>
    rcases Nat.lt_or_ge b.toNat 8 with h | h
    · exact .inl ⟨_, exec_ldi h, rfl, rfl⟩
    · exact .inr ⟨b, h, by simp [Instr.operands], exec_ldi_invalid h⟩
  | mul a b =>
    rcases Nat.lt_or_ge a.toNat 8 with h1 | h1
    · rcases Nat.lt_or_ge b.toNat 8 with h2 | h2
      · exact .inl ⟨_, exec_mul h1 h2, rfl, rfl⟩
      · exact .inr ⟨b, h2, by simp [Instr.operands], exec_mul_invalid_second h1 h2⟩
    · exact .inr ⟨a, h1, by simp [Instr.operands], exec_mul_invalid_first h1⟩

/-- Only a PUSH that names a register writes memory, and it writes the one byte at the decremented sp. -/
theorem exec_mem {i : Instr} {s t : State} (h : exec i s = .next t) :
    t.mem = s.mem ∨
    ∃ b, i = .push b ∧ ∃ hb : b.toNat < 8,
      t.mem = s.mem.poke s.preDecrement.sp.toNat (s.preDecrement.reg ⟨b.toNat, hb⟩) := by
  cases i with
  | push b =>
    rcases Nat.lt_or_ge b.toNat 8 with h8 | h8
    · rw [exec_push h8] at h
      injection h with h
      exact .inr ⟨b, rfl, h8, by rw [← h]; rfl⟩
    · rw [exec_push_invalid h8] at h
      injection h with h
      exact .inl (by rw [← h]; rfl)
  | hlt => rw [exec_hlt] at h; injection h with h; exact .inl (by rw [← h]; rfl)
  | unrecognized b => rw [exec_unrecognized] at h; injection h with h; exact .inl (by rw [← h]; rfl)
  | pop b =>
    rcases Nat.lt_or_ge b.toNat 8 with h8 | h8
    · rw [exec_pop h8] at h; injection h with h; exact .inl (by rw [← h]; rfl)
    · rw [exec_pop_invalid h8] at h; injection h with h; exact .inl (by rw [← h]; rfl)
  | prn b =>
    rcases Nat.lt_or_ge b.toNat 8 with h8 | h8
    · rw [exec_prn h8] at h; injection h with h; exact .inl (by rw [← h]; rfl)
    · rw [exec_prn_invalid h8] at h; injection h with h; exact .inl (by rw [← h]; rfl)
  | ldi b v =>
    rcases Nat.lt_or_ge b.toNat 8 with h8 | h8
    · rw [exec_ldi h8] at h; injection h with h; exact .inl (by rw [← h]; rfl)
    · rw [exec_ldi_invalid h8] at h; injection h with h; exact .inl (by rw [← h]; rfl)
  | mul a b =>
    rcases Nat.lt_or_ge a.toNat 8 with h8 | h8
    · rcases Nat.lt_or_ge b.toNat 8 with h9 | h9
      · rw [exec_mul h8 h9] at h; injection h with h; exact .inl (by rw [← h]; rfl)
      · rw [exec_mul_invalid_second h8 h9] at h; injection h with h; exact .inl (by rw [← h]; rfl)
    · rw [exec_mul_invalid_first h8] at h; injection h with h; exact .inl (by rw [← h]; rfl)

/-- The three ways of a step that the block can take. -/
theorem step_enabled {s : State} (h : s.Enabled) :
    (256 ≤ s.pc ∧ step s = .next (s.takeFault none (.outOfRange s.pc))) ∨
    (s.pc < 256 ∧ 256 ≤ s.pc + (decodeOpcode (s.mem.peek s.pc)).2 ∧
      step s = .next (s.takeFault (some (s.mem.peek s.pc)) (.outOfRange 256))) ∨
    (s.pc + (decodeOpcode (s.mem.peek s.pc)).2 < 256 ∧ step s = exec s.current s) := by
  have hs : step s = match s.fetch with
      | .error f => .next (s.takeFault f.opcode f.cause)
      | .ok i => exec i s := by
    unfold step
    exact (if_neg (by simp [h.1])).trans (if_neg (by simp [h.2]))
  rcases Nat.lt_or_ge s.pc 256 with hpc | hpc
  · rcases Nat.lt_or_ge (s.pc + (decodeOpcode (s.mem.peek s.pc)).2) 256 with hn | hn
    · exact .inr (.inr ⟨hn, by rw [hs, fetch_inside rfl hn]; rfl⟩)
    · exact .inr (.inl ⟨hpc, hn, by rw [hs, fetch_truncated hpc rfl hn]⟩)
  · exact .inl ⟨hpc, by rw [hs, fetch_outside hpc]⟩

/-- A step answers a next state only from an enabled state. -/
theorem enabled_of_step {s t : State} (h : step s = .next t) : s.Enabled := by
  unfold step at h
  split at h
  · cases h
  · split at h
    · cases h
    · simp_all [State.Enabled]

/-- The inversion of a step: where its next state comes from. -/
theorem step_cases {s t : State} (h : step s = .next t) :
    s.Enabled ∧
    ((256 ≤ s.pc ∧ t = s.takeFault none (.outOfRange s.pc)) ∨
     (s.pc < 256 ∧ 256 ≤ s.pc + (decodeOpcode (s.mem.peek s.pc)).2 ∧
       t = s.takeFault (some (s.mem.peek s.pc)) (.outOfRange 256)) ∨
     (s.pc + (decodeOpcode (s.mem.peek s.pc)).2 < 256 ∧ exec s.current s = .next t)) := by
  have en := enabled_of_step h
  refine ⟨en, ?_⟩
  rcases step_enabled en with ⟨h1, e⟩ | ⟨h1, h2, e⟩ | ⟨h1, e⟩ <;> rw [e] at h
  · exact .inl ⟨h1, by injection h with h; exact h.symm⟩
  · exact .inr (.inl ⟨h1, h2, by injection h with h; exact h.symm⟩)
  · exact .inr (.inr ⟨h1, h⟩)

end Sys2Proof.Machine
end

