-- ==== Sys2Proof/Machine/Assembly.lean ====
section
/-! DEFINITION. The assembler notation of the spec (00_scope.md R12, 30_encoding.md R60). The hardware has no assembler and
mnemonics are documentation only (R61), so nothing of the machine uses this file. -/

namespace Sys2Proof.Machine

/-- `R<n>` for a register operand byte of 0 to 7; other bytes have no spelling (R60). -/
def registerText (b : Byte) : Option (List Char) :=
  if b.toNat < Config.numRegs then some ('R' :: decimalDigits b) else none

/-- The text of an instruction, operands in byte order, immediates in decimal (R12, R60); none where the syntax has no
spelling for it. -/
def instrText : Instr → Option (List Char)
  | .hlt => some "HLT".toList
  | .push r => (registerText r).map (fun t => "PUSH ".toList ++ t)
  | .pop r => (registerText r).map (fun t => "POP ".toList ++ t)
  | .prn r => (registerText r).map (fun t => "PRN ".toList ++ t)
  | .ldi r v => (registerText r).map (fun t => "LDI ".toList ++ t ++ ", ".toList ++ decimalDigits v)
  | .mul a b =>
    match registerText a, registerText b with
    | some s, some t => some ("MUL ".toList ++ s ++ ", ".toList ++ t)
    | _, _ => none
  | .unrecognized _ => none

end Sys2Proof.Machine
end

