-- ==== Sys2Proof/Tests/Slice0.lean ====
section
/-! SUPPORT. The model's own tests: the check of WellFormed, words written out from the encoding table, steps on small states
with results from spec/95_test_vectors.md, and for every statement with hypotheses a witness that meets them. -/

namespace Sys2Proof.Tests

open Sys2Proof Sys2Proof.Machine

/-- Reset's state with a pc and with bytes placed from an address on. -/
def start (pc : Nat) (bytes : List Byte) : State :=
  { State.reset with pc := pc, mem := (Memory.mk []).place pc bytes }

/-- The state an outcome goes on with. -/
def after (o : Outcome) : Option State :=
  match o with
  | .next t => some t
  | .fault _ => none
  | .refused _ => none

/-- The fault recorded after an outcome, as code, pc, opcode and detail. -/
def faultAfter (o : Outcome) : Option (Nat × Nat × Option Byte × FaultDetail) :=
  ((after o).bind (·.fault)).map (fun f => (f.code, f.pc, f.opcode, f.detail))

/-- A register after an outcome. -/
def regAfter (o : Outcome) (r : Fin 8) : Option Byte := (after o).map (·.reg r)

/-- The pc after an outcome. -/
def pcAfter (o : Outcome) : Option Nat := (after o).map (·.pc)

/-! ### WellFormed refuses an ill-formed term of its one check (R54) -/

theorem test_unrecognized_hlt_is_ill_formed : ¬ (Instr.unrecognized 0x01).WellFormed := by decide
theorem test_unrecognized_mul_is_ill_formed : ¬ (Instr.unrecognized 0xA2).WellFormed := by decide
theorem test_unrecognized_a0_is_well_formed : (Instr.unrecognized 0xA0).WellFormed := by decide
theorem test_invalid_register_is_well_formed : (Instr.push 255).WellFormed := by decide

/-! ### Words of the encoding table (30_encoding.md R50, R52), one for each constructor -/

theorem test_decode_hlt : decode [0b00000001] = .ok (.hlt, []) := by rfl
theorem test_decode_push : decode [0b01000101, 0b00000011, 0xFF] = .ok (.push 3, [0xFF]) := by rfl
theorem test_decode_pop : decode [0b01000110, 0b00000010] = .ok (.pop 2, []) := by rfl
theorem test_decode_prn : decode [0b01000111, 0b11111111] = .ok (.prn 255, []) := by rfl
theorem test_decode_ldi : decode [0b10000010, 0b00000101, 0b11111111] = .ok (.ldi 5 255, []) := by rfl
theorem test_decode_mul : decode [0b10100010, 0b00000111, 0b00000001] = .ok (.mul 7 1, []) := by rfl
/-- 0xA0 is one byte long whatever its bits 7:6 are (R56). -/
theorem test_decode_unrecognized : decode [0b10100000, 0, 1] = .ok (.unrecognized 0xA0, [0, 1]) := by rfl
theorem test_decode_truncated : decode [0x82, 9] = .error (.missingOperand 0x82 2) := by rfl
theorem test_decode_empty : decode [] = .error .noOpcode := by rfl
theorem test_table_word_ldi : decodeTableWord 24 0x080082 = some (.ldi 0 8) := by decide
theorem test_table_word_short : decodeTableWord 8 0xFFFFA2 = some (.mul 0 0) := by decide

/-! ### Vectors D: fetch, decode and halting -/

theorem test_D3_fetch_at_256 : faultAfter (step (start 256 [])) = some (1, 256, none, .address 256) := by decide
theorem test_D4_ldi_at_254 : faultAfter (step (start 254 [0x82, 9])) = some (1, 254, some 0x82, .address 256) := by decide
theorem test_D5_prn_at_255 : faultAfter (step (start 255 [0x47])) = some (1, 255, some 0x47, .address 256) := by decide
theorem test_D6_hlt_at_255 :
    (after (step (start 255 [0x01]))).map (fun t => (t.halted, t.pc, t.fault)) = some (true, 256, none) := by decide
theorem test_D7_halted_has_no_step : step { start 0 [0x47, 0] with halted := true } = .fault .halted := by rfl
theorem test_placed_word_runs_next : step (State.reset.withFetchWord 24 0x080082) =
    exec (.ldi 0 8) (State.reset.withFetchWord 24 0x080082) := by rfl

/-! ### Vectors L, A, S and H: one step each -/

theorem test_L1_ldi : (regAfter (step (start 0 [0x82, 0, 8])) 0, pcAfter (step (start 0 [0x82, 0, 8]))) =
    (some 8, some 3) := by decide
theorem test_L5_ldi_invalid : faultAfter (step (start 0 [0x82, 8, 5])) = some (2, 0, some 0x82, .register 8) := by decide
theorem test_L8_prn_sp : (after (step (start 0 [0x47, 7]))).map (fun t => (t.out, t.pc)) = some ([244], 2) := by decide
theorem test_L9_prn_invalid : (after (step (start 0 [0x47, 0xFF]))).map (fun t => (t.out, t.pc)) = some ([], 0) := by decide
theorem test_A9_mul :
    regAfter (step { start 0 [0xA2, 0, 1] with regs := #v[9, 3, 0, 0, 0, 0, 0, 0xF4] }) 0 = some 27 := by decide
theorem test_A10_mul_square :
    regAfter (step { start 0 [0xA2, 2, 2] with regs := #v[0, 0, 20, 0, 0, 0, 0, 0xF4] }) 2 = some 144 := by decide
theorem test_A12_mul_first_operand_first : faultAfter (step (start 0 [0xA2, 9, 8])) = some (2, 0, some 0xA2, .register 9) := by
  decide
theorem test_A13_mul_second_operand : faultAfter (step (start 0 [0xA2, 1, 8])) = some (2, 0, some 0xA2, .register 8) := by
  decide
theorem test_A8_alu_other_tag : alu (.other 0) 1 1 = .error (.unsupportedOperation (.other 0)) := by rfl
theorem test_A6_alu_add : alu .add 200 100 = .ok 44 := by rfl
theorem test_S2_push_wraps :
    (after (step { start 0 [0x45, 0] with regs := #v[42, 0, 0, 0, 0, 0, 0, 0] })).map (fun t => (t.sp, t.mem.peek 255)) =
      some (0xFF, 42) := by decide
theorem test_S3_push_sp_stores_new_sp :
    (after (step (start 0 [0x45, 7]))).map (fun t => (t.sp, t.mem.peek 0xF3)) = some (0xF3, 0xF3) := by decide
theorem test_S7_pop_wraps :
    (after (step { start 0 [0x46, 0] with
        regs := #v[0, 0, 0, 0, 0, 0, 0, 0xFF], mem := { cells := [(0, 0x46), (255, 9)] } })).map
      (fun t => (t.reg 0, t.sp)) = some (9, 0) := by decide
theorem test_S8_pop_sp : regAfter (step { start 0 [0x46, 7] with regs := #v[0, 0, 0, 0, 0, 0, 0, 0x30] }) 7 = some 1 := by
  decide
theorem test_H2_zero_is_skipped : (after (step (start 0 [0, 1]))).map (fun t => (t.pc, t.halted)) = some (1, false) := by decide
theorem test_H1_hlt : (after (step (start 0 [1]))).map (fun t => (t.pc, t.halted, t.out)) = some (1, true, []) := by decide

/-- Reset with the default STACK_BASE (R31). -/
theorem test_reset_sp : State.reset.readX 7 = .ok 0xF4 := by rfl
/-- STACK_BASE = 0 makes the first PUSH write cell 255 (R112). -/
theorem test_stack_base_zero :
    (after (exec (.push 7) (State.resetWith { stackBase := 0 }))).map (fun t => t.mem.peek 255) = some 255 := by decide
/-- W1: register writes are kept modulo 256. -/
theorem test_W1_narrow : (narrow 300, narrow (-1), narrow 256) = (44, 255, 0) := by decide
theorem test_write_zero_unlists : (Memory.mk [(3, 1), (5, 2)]).poke 3 0 = Memory.mk [(5, 2)] := by decide

/-! ### Loader vectors LD and the host's text -/

theorem test_LD1_comments_and_blank_lines :
    imageTokens "10000010 # LDI R0,8\n00000000\n\n# comment\n  00001000 \n00000001\n".toList =
      ["10000010".toList, "00000000".toList, "00001000".toList, "00000001".toList] := by decide
theorem test_LD2_bad_token :
    boot Config.standard (some "00000001\n01000111\n102\n00000000\n".toList) =
      { block := { State.reset with mem := { cells := [(0, 1), (1, 0x47)] } }, error := some (.malformedProgram 2) } := by decide
theorem test_LD3_token_above_255 : tokenByte "100000010".toList = none := by decide
theorem test_LD6_no_argument : (boot Config.standard none).error = some .missingProgramArgument := by decide
theorem test_render : renderOut [27, 0, 255] = "27\n0\n255\n".toList := by decide
/-- The spellings of R60 and of program P2. -/
theorem test_assembly : instrText (.ldi 0 8) = some "LDI R0, 8".toList ∧ instrText (.mul 0 1) = some "MUL R0, R1".toList ∧
    instrText (.push 8) = none := by decide
theorem test_exit_after_fault : (State.exitStatus { State.reset with fault := some ⟨2, .invalidRegister, 0, some 0x45, .register 8⟩ })
    = some .nonZero := by decide

/-! ### Witnesses: a state and operands that meet the hypotheses of each statement, at boundary values -/

theorem witness_DecodeOfEncode : (Instr.ldi 255 255).WellFormed ∧ (Instr.unrecognized 0xFF).WellFormed := by decide
theorem witness_EncodeOfDecode : decode [0xA2, 0xFF, 0, 7] = .ok (.mul 0xFF 0, [7]) := by rfl
theorem witness_OpcodeMap : (0x44 : Byte) ≠ 0x01 ∧ (0x44 : Byte) ≠ 0x45 ∧ (0x44 : Byte) ≠ 0x46 ∧ (0x44 : Byte) ≠ 0x47 ∧
    (0x44 : Byte) ≠ 0x82 ∧ (0x44 : Byte) ≠ 0xA2 := by decide
theorem witness_OpcodeAlone : decode [0x45, 0, 1] = .ok (.push 0, [1]) ∧ decode [0x45, 9] = .ok (.push 9, []) ∧
    decode [0xA0, 1] = .ok (.unrecognized 0xA0, [1]) ∧ recognizedBytes.contains 0xA0 = false := ⟨rfl, rfl, rfl, rfl⟩
theorem witness_OnlyMissingBytes : decode [0xA2] = .error (.missingOperand 0xA2 1) ∧ (decodeOpcode 0xA2).2 = 2 ∧
    decode [0x01] = .ok (.hlt, []) := ⟨rfl, rfl, rfl⟩

/-- LDI in the last three bytes of memory. -/
theorem witness_StepRuns : (start 253 [0x82, 1, 0xFF]).Enabled ∧ (Instr.ldi 1 0xFF).WellFormed ∧
    (start 253 [0x82, 1, 0xFF]).memRead 253 = .ok 0x82 ∧ (start 253 [0x82, 1, 0xFF]).memRead 254 = .ok 1 ∧
    (start 253 [0x82, 1, 0xFF]).memRead 255 = .ok 0xFF ∧ encode (.ldi 1 0xFF) = [0x82, 1, 0xFF] := by decide
theorem witness_StepRuns_bytes : ∀ (k : Nat) (h : k < (encode (.ldi 1 0xFF)).length),
    (start 253 [0x82, 1, 0xFF]).memRead (253 + k) = .ok (encode (.ldi 1 0xFF))[k] := by decide
theorem witness_StepsExactly : ({ State.reset with halted := true } : State).halted = true ∧
    (State.reset.recording 1 .outOfRange none (.address 256)).halted = false ∧
    (State.reset.recording 1 .outOfRange none (.address 256)).fault ≠ none ∧ State.reset.Enabled := by decide
theorem witness_EveryOpcodeByte : (start 255 [0xFF]).Enabled ∧ (start 255 [0xFF]).memRead 255 = .ok 0xFF ∧
    255 + (decodeOpcode 0xFF).2 < 256 := by decide
/-- Both cases of its register operands: R7 and the byte 8 in MUL, at the end of memory. -/
theorem witness_EveryOpcodeByte_registers : (start 253 [0xA2, 7, 8]).Enabled ∧
    (start 253 [0xA2, 7, 8]).memRead 253 = .ok 0xA2 ∧ 253 + (decodeOpcode 0xA2).2 < 256 ∧
    ValidRegisters (.mul 7 7) ∧ ¬ ValidRegisters (.mul 7 8) := by decide
theorem witness_OpcodeFetchOutside : (start 256 []).Enabled ∧ 256 ≤ (start 256 []).pc := by decide
theorem witness_OperandFetchOutside : (start 254 [0x82]).Enabled ∧ (start 254 [0x82]).memRead 254 = .ok 0x82 ∧
    256 ≤ 254 + (decodeOpcode 0x82).2 := by decide
theorem witness_OperandFetchInside : (start 255 [0x01]).Enabled ∧ (start 255 [0x01]).memRead 255 = .ok 0x01 ∧
    255 + (decodeOpcode 0x01).2 < 256 := by decide

/-- The clauses of the fault order, each at a boundary: pc 258, operand at 256 after an opcode at 255 and at 254, register
8 in byte 1, register 8 in byte 2, and none. -/
theorem witness_FirstFault :
    faultAfter (step (start 258 [])) = some (1, 258, none, .address 258) ∧
    faultAfter (step (start 255 [0xA2])) = some (1, 255, some 0xA2, .address 256) ∧
    faultAfter (step (start 254 [0xA2, 8])) = some (1, 254, some 0xA2, .address 256) :=
  ⟨by decide, by decide, by decide⟩
theorem witness_FirstFault_registers :
    faultAfter (step (start 253 [0xA2, 8, 8])) = some (2, 253, some 0xA2, .register 8) ∧
    faultAfter (step (start 253 [0xA2, 7, 255])) = some (2, 253, some 0xA2, .register 255) ∧
    faultAfter (step (start 253 [0x82, 7, 8])) = none ∧ (start 253 [0x82, 7, 8]).Enabled :=
  ⟨by decide, by decide, by decide, by decide⟩
theorem witness_FaultingStep : ∃ t, step (start 5 [0x45, 8]) = .next t ∧ t.fault ≠ none ∧
    (start 5 [0x45, 8]).memRead 5 = .ok 0x45 := ⟨_, rfl, by decide, by decide⟩
theorem witness_FaultingStep_outside : ∃ t, step (start 256 []) = .next t ∧ t.fault ≠ none ∧ 256 ≤ (start 256 []).pc :=
  ⟨_, rfl, by decide, by decide⟩
theorem witness_Retired_ldi : ∃ t, step (start 253 [0x82, 7, 1]) = .next t ∧ t.fault = none ∧
    (start 253 [0x82, 7, 1]).memRead 253 = .ok 0x82 := ⟨_, rfl, by decide, by decide⟩
theorem witness_Retired_mul : ∃ t, step (start 253 [0xA2, 7, 7]) = .next t ∧ t.fault = none ∧
    (start 253 [0xA2, 7, 7]).memRead 253 = .ok 0xA2 := ⟨_, rfl, by decide, by decide⟩
theorem witness_Retired_prn : ∃ t, step (start 254 [0x47, 7]) = .next t ∧ t.fault = none ∧
    (start 254 [0x47, 7]).memRead 254 = .ok 0x47 := ⟨_, rfl, by decide, by decide⟩
theorem witness_Retired_push : ∃ t, step (start 254 [0x45, 0]) = .next t ∧ t.fault = none ∧
    (start 254 [0x45, 0]).memRead 254 = .ok 0x45 := ⟨_, rfl, by decide, by decide⟩
theorem witness_Retired_pop : ∃ t, step (start 254 [0x46, 0]) = .next t ∧ t.fault = none ∧
    (start 254 [0x46, 0]).memRead 254 = .ok 0x46 := ⟨_, rfl, by decide, by decide⟩
theorem witness_Retired_hlt : ∃ t, step (start 255 [0x01]) = .next t ∧ t.fault = none ∧
    (start 255 [0x01]).memRead 255 = .ok 0x01 := ⟨_, rfl, by decide, by decide⟩
theorem witness_Retired_unrecognized : ∃ t, step (start 255 [0xA0]) = .next t ∧ t.fault = none ∧
    (start 255 [0xA0]).memRead 255 = .ok 0xA0 ∧ recognizedBytes.contains 0xA0 = false :=
  ⟨_, rfl, by decide, by decide, by decide⟩

theorem witness_Keeps : (start 255 [0xFF]).MemoryCanonical ∧ (start 255 [0xFF]).PcBounded ∧
    (start 255 [0xFF]).FaultLegal ∧ ∃ t, step (start 255 [0xFF]) = .next t :=
  ⟨by decide, by decide, fun _ h => (nomatch h), ⟨_, rfl⟩⟩
/-- A fault the invariant allows, in its second form. -/
theorem witness_FaultLegal :
    ((start 254 [0x82]).recording 1 .outOfRange (some 0x82) (.address 256)).FaultLegal := by
  intro f h
  injection h with h
  subst h
  exact ⟨rfl, rfl, rfl, .inr (.inl ⟨rfl, by decide, ⟨_, rfl⟩, rfl⟩)⟩
theorem witness_OnlyHlt : (∃ t, step (start 0 [1]) = .next t ∧ t.halted = true) ∧
    (∃ t, exec (.prn 0) { State.reset with halted := true } = .next t) := ⟨⟨_, rfl, rfl⟩, ⟨_, rfl⟩⟩
theorem witness_OnlyPrn : ∃ t, step (start 0 [0x47, 7]) = .next t ∧ t.out = [0xF4] := ⟨_, rfl, by decide⟩
theorem witness_OutputIsNeverRead : ∃ t, step { start 0 [0x47, 7] with out := [1] } = .next t ∧ t.out = [1, 0xF4] :=
  ⟨_, rfl, by decide⟩
theorem witness_OnlyPush : (∃ t, step (start 0 [0x46, 7]) = .next t) ∧ (start 0 [0x46, 7]).memRead 0 ≠ .ok 0x45 ∧
    (∃ t, step (start 256 []) = .next t) ∧ (start 256 []).memRead 256 ≠ .ok 0x45 :=
  ⟨⟨_, rfl⟩, by decide, ⟨_, rfl⟩, by decide⟩
/-- P4 in one PUSH: sp = 10 and R0 = 1, so HLT is written over the next instruction at 9. -/
theorem witness_PushedByte :
    let s : State := { start 7 [0x45, 0] with regs := #v[1, 0, 0, 0, 0, 0, 0, 10] }
    s.Enabled ∧ s.memRead s.pc = .ok 0x45 ∧ s.memRead (s.pc + 1) = .ok 0 ∧ s.readX 7 = .ok 10 ∧
    (10 - 1 : Byte).toNat = s.pc + 2 ∧ s.readX (0 : Byte).toNat = .ok 1 ∧ Instr.hlt.WellFormed ∧ Instr.hlt.opcode = 1 := by
  decide
/-- An opcode with operands is pushed before its operand bytes 7 and 8: LDI at 9. -/
theorem witness_PushedByte_operands :
    let s : State := { start 7 [0x45, 0, 0, 7, 8] with regs := #v[0x82, 0, 0, 0, 0, 0, 0, 10] }
    s.Enabled ∧ s.memRead s.pc = .ok 0x45 ∧ s.memRead (s.pc + 1) = .ok 0 ∧ s.readX 7 = .ok 10 ∧
    (10 - 1 : Byte).toNat = s.pc + 2 ∧ s.readX (0 : Byte).toNat = .ok 0x82 ∧ (Instr.ldi 7 8).WellFormed ∧
    (Instr.ldi 7 8).opcode = 0x82 ∧ ∃ t, step s = .next t ∧ t.memRead 10 = .ok 7 ∧ t.memRead 11 = .ok 8 :=
  ⟨by decide, by decide, by decide, by decide, by decide, by decide, by decide, by decide, _, rfl, by decide, by decide⟩
/-- The pushed opcode lies at 255 and its operands outside memory: sp wraps from 0. -/
theorem witness_PushedByte_truncated :
    let s : State := { start 253 [0x45, 0] with regs := #v[0x82, 0, 0, 0, 0, 0, 0, 0] }
    s.Enabled ∧ s.memRead s.pc = .ok 0x45 ∧ s.memRead (s.pc + 1) = .ok 0 ∧ s.readX 7 = .ok 0 ∧
    (0 - 1 : Byte).toNat = s.pc + 2 ∧ s.readX (0 : Byte).toNat = .ok 0x82 ∧ 256 ≤ s.pc + 2 + (decodeOpcode 0x82).2 := by decide
/-- PUSH R7 over the next opcode stores its own address there: 9. -/
theorem witness_PushedByte_sp :
    let s : State := { start 7 [0x45, 7] with regs := #v[0, 0, 0, 0, 0, 0, 0, 10] }
    s.Enabled ∧ s.memRead s.pc = .ok 0x45 ∧ s.memRead (s.pc + 1) = .ok 7 ∧ s.readX 7 = .ok 10 ∧
    (10 - 1 : Byte).toNat = s.pc + 2 ∧ (Instr.unrecognized 9).WellFormed ∧
    ∃ t, step s = .next t ∧ t.memRead 9 = .ok 9 :=
  ⟨by decide, by decide, by decide, by decide, by decide, by decide, _, rfl, by decide⟩
theorem witness_Unsupported : ∃ t f, step (start 0 [0x82, 8, 0]) = .next t ∧ t.fault = some f := ⟨_, _, rfl, rfl⟩

theorem witness_RegisterWrite : ∃ t, State.reset.writeX 7 (-1) = .ok t ∧ t.readX 7 = .ok 255 := ⟨_, rfl, by decide⟩
theorem witness_InvalidRegister : State.reset.readX 8 = .error (.invalidRegister 8) ∧ 8 ≤ (8 : Byte).toNat ∧
    8 ≤ (255 : Byte).toNat ∧ (7 : Byte).toNat < 8 := by decide
theorem witness_MemoryAccess : State.reset.memRead 256 = .error (.outOfRange 256) ∧ State.reset.memRead 255 = .ok 0 ∧
    ∃ t, State.reset.memWrite 255 9 = .ok t ∧ t.memRead 255 = .ok 9 ∧ t.memRead 254 = .ok 0 :=
  ⟨by decide, by decide, _, rfl, by decide, by decide⟩
theorem witness_Ldi : (7 : Byte).toNat < 8 ∧ ∃ t, exec (.ldi 7 255) State.reset = .next t ∧ t.readX 7 = .ok 255 :=
  ⟨by decide, _, rfl, by decide⟩
theorem witness_Prn : State.reset.readX (7 : Byte).toNat = .ok 0xF4 := by rfl
theorem witness_Mul : State.reset.readX (7 : Byte).toNat = .ok 0xF4 ∧ State.reset.readX (0 : Byte).toNat = .ok 0 := by decide
/-- sp = 0, where PUSH wraps to 255; registers 0 and 7. -/
theorem witness_Push :
    let s : State := State.resetWith { stackBase := 0 }
    s.readX 7 = .ok 0 ∧ s.readX (0 : Byte).toNat = .ok 0 ∧ s.readX (7 : Byte).toNat = .ok 0 := by decide
/-- sp = 255, where POP wraps to 0; registers 0 and 7. -/
theorem witness_Pop :
    let s : State := State.resetWith { stackBase := 255 }
    (0 : Byte).toNat < 8 ∧ (7 : Byte).toNat < 8 ∧ s.readX 7 = .ok 255 ∧ s.memRead (255 : Byte).toNat = .ok 0 := by decide
theorem witness_PushThenPop : State.reset.readX 7 = .ok 0xF4 ∧ State.reset.readX (6 : Byte).toNat = .ok 0 ∧
    State.reset.readX (7 : Byte).toNat = .ok 0xF4 := by decide
theorem witness_Frames : (∃ t, exec (.ldi 7 1) State.reset = .next t) ∧ (∃ t, exec (.ldi 8 1) State.reset = .next t) ∧
    (∃ t, exec (.mul 7 7) State.reset = .next t) ∧ (∃ t, exec (.mul 7 8) State.reset = .next t) ∧
    (∃ t, exec (.prn 7) State.reset = .next t) ∧ (∃ t, exec (.prn 8) State.reset = .next t) ∧
    (∃ t, exec (.push 7) State.reset = .next t) ∧ (∃ t, exec (.push 8) State.reset = .next t) ∧
    (∃ t, exec (.pop 7) State.reset = .next t) ∧ (∃ t, exec (.pop 8) State.reset = .next t) ∧
    (∃ t, exec .hlt State.reset = .next t) ∧ (∃ t, exec (.unrecognized 0) State.reset = .next t) :=
  ⟨⟨_, rfl⟩, ⟨_, rfl⟩, ⟨_, rfl⟩, ⟨_, rfl⟩, ⟨_, rfl⟩, ⟨_, rfl⟩, ⟨_, rfl⟩, ⟨_, rfl⟩, ⟨_, rfl⟩, ⟨_, rfl⟩, ⟨_, rfl⟩, ⟨_, rfl⟩⟩

/-! The clauses of the statements about a step at one opcode. -/

theorem witness_StepAt_outside : (start 256 []).Enabled ∧ 256 ≤ (start 256 []).pc := by decide
theorem witness_StepAt_truncated : (start 254 [0x82]).Enabled ∧ (start 254 [0x82]).memRead 254 = .ok 0x82 ∧
    (start 254 [0xA2]).memRead 254 = .ok 0xA2 ∧ (start 255 [0x47]).Enabled ∧ (start 255 [0x47]).memRead 255 = .ok 0x47 ∧
    (start 255 [0x45]).memRead 255 = .ok 0x45 ∧ (start 255 [0x46]).memRead 255 = .ok 0x46 := by decide
theorem witness_StepAtLdi : (start 253 [0x82, 7, 255]).Enabled ∧ (start 253 [0x82, 7, 255]).memRead 253 = .ok 0x82 ∧
    (start 253 [0x82, 7, 255]).memRead 254 = .ok 7 ∧ (start 253 [0x82, 7, 255]).memRead 255 = .ok 255 ∧
    (start 253 [0x82, 8, 255]).memRead 254 = .ok 8 := by decide
theorem witness_StepAtPrn : (start 254 [0x47, 7]).Enabled ∧ (start 254 [0x47, 7]).memRead 254 = .ok 0x47 ∧
    (start 254 [0x47, 7]).memRead 255 = .ok 7 ∧ (start 254 [0x47, 7]).readX (7 : Byte).toNat = .ok 0xF4 ∧
    (start 254 [0x47, 8]).memRead 255 = .ok 8 := by decide
theorem witness_StepAtMul : (start 253 [0xA2, 7, 7]).Enabled ∧ (start 253 [0xA2, 7, 7]).memRead 253 = .ok 0xA2 ∧
    (start 253 [0xA2, 7, 7]).memRead 254 = .ok 7 ∧ (start 253 [0xA2, 7, 7]).memRead 255 = .ok 7 ∧
    (start 253 [0xA2, 7, 7]).readX (7 : Byte).toNat = .ok 0xF4 ∧ (start 253 [0xA2, 8, 8]).memRead 254 = .ok 8 ∧
    (start 253 [0xA2, 7, 8]).memRead 255 = .ok 8 := by decide
theorem witness_StepAtPush : (start 254 [0x45, 7]).Enabled ∧ (start 254 [0x45, 7]).memRead 254 = .ok 0x45 ∧
    (start 254 [0x45, 7]).memRead 255 = .ok 7 ∧ (start 254 [0x45, 7]).readX 7 = .ok 0xF4 ∧
    (start 254 [0x45, 7]).readX (7 : Byte).toNat = .ok 0xF4 ∧ (start 254 [0x45, 8]).memRead 255 = .ok 8 := by decide
theorem witness_StepAtPop : (start 254 [0x46, 7]).Enabled ∧ (start 254 [0x46, 7]).memRead 254 = .ok 0x46 ∧
    (start 254 [0x46, 7]).memRead 255 = .ok 7 ∧ (start 254 [0x46, 7]).readX 7 = .ok 0xF4 ∧
    (start 254 [0x46, 7]).memRead (0xF4 : Byte).toNat = .ok 0 ∧ (start 254 [0x46, 8]).memRead 255 = .ok 8 := by decide
theorem witness_StepAtHlt : (start 255 [0x01]).Enabled ∧ (start 255 [0x01]).memRead 255 = .ok 0x01 ∧
    ∃ t, step (start 255 [0x01]) = .next t ∧ t.halted = true := ⟨by decide, by decide, _, rfl, rfl⟩
theorem witness_StepAtUnrecognized : (start 255 [0xFF]).Enabled ∧ (start 255 [0xFF]).memRead 255 = .ok 0xFF ∧
    recognizedBytes.contains 0xFF = false := by decide

theorem witness_Loader : ["1".toList, "10".toList].map tokenByte = [(1 : Byte), 2].map some ∧ [(1 : Byte), 2].length ≤ 256 ∧
    tokenByte "102".toList = none ∧ [(1 : Byte), 2].length < 256 := by decide
/-- The bad-token clause at its boundary: 255 good tokens, and the bad one is the 256th. -/
theorem witness_Loader_last_bad : (List.replicate 255 "1".toList).map tokenByte = (List.replicate 255 (1 : Byte)).map some ∧
    (List.replicate 255 (1 : Byte)).length ≤ 256 ∧ (List.replicate 255 (1 : Byte)).length < 256 ∧
    tokenByte "102".toList = none := by
  refine ⟨?_, by rw [List.length_replicate]; omega, by rw [List.length_replicate]; omega, by decide⟩
  rw [List.map_replicate, List.map_replicate]
  rfl
/-- The too-many clause: 256 good tokens before the extra one. -/
theorem witness_Loader_full : (List.replicate 256 "1".toList).map tokenByte = (List.replicate 256 (1 : Byte)).map some ∧
    (List.replicate 256 (1 : Byte)).length = 256 := by
  refine ⟨?_, List.length_replicate⟩
  rw [List.map_replicate, List.map_replicate]
  rfl
theorem witness_Token : [true, true, true, true, true, true, true, true] ≠ [] ∧
    tokenByte "11111111".toList = some 255 ∧ tokenByte "100000000".toList = none ∧
    '2' ∈ "102".toList ∧ '2' ≠ '0' ∧ '2' ≠ '1' := by decide
theorem witness_HostMoves : ({ phase := .running, block := State.reset } : Session).phase = .running ∧
    ({ phase := .loading, block := State.reset } : Session).phase = .loading ∧ 255 < 256 ∧ State.reset.Enabled ∧
    ∃ y, ({ phase := .loading, block := State.reset } : Session).move Config.standard .step = some y :=
  ⟨rfl, rfl, by decide, by decide, _, rfl⟩
theorem witness_ExitStatus : ({ State.reset with halted := true } : State).fault = none ∧
    ({ State.reset with halted := true } : State).halted = true ∧
    (State.reset.recording 1 .outOfRange none (.address 256)).fault ≠ none := by decide

end Sys2Proof.Tests
end

section
/-! The moves of the host (00_scope.md R9, 70_reset_and_hazards.md R113, R117). -/

namespace Sys2Proof.Machine

/-! ### Where there is a next state -/

/-- Every meaning answers a next state: it retires or takes a fault (R71, R77). -/
theorem exists_exec_eq_next (i : Instr) (s : State) : ∃ t, exec i s = .next t := by
  rcases exec_cases i s with ⟨t, ht, -, -⟩ | ⟨b, -, -, ht⟩
  · exact ⟨t, ht⟩
  · exact ⟨_, ht⟩

/-- An enabled block has a step (R63). -/
theorem exists_step_eq_next {s : State} (h : s.Enabled) : ∃ t, step s = .next t := by
  rcases step_enabled h with ⟨-, hs⟩ | ⟨-, -, hs⟩ | ⟨-, hs⟩
  · exact ⟨_, hs⟩
  · exact ⟨_, hs⟩
  · rw [hs]
    exact exists_exec_eq_next s.current s

/-! ### One equation per move -/

variable {c : Config} {x y : Session}

theorem move_reset : x.move c .reset = some { phase := .loading, block := State.resetWith c } := rfl

theorem move_load_of_running (h : x.phase = .running) (a : Nat) (v : Byte) : x.move c (.load a v) = none := by
  simp [Session.move, h]

theorem move_load_of_loading (h : x.phase = .loading) {a : Nat} (ha : a < 256) (v : Byte) :
    x.move c (.load a v) = some { phase := .loading, block := x.block.withMem (x.block.mem.poke a v) } := by
  simp [Session.move, h, memWrite_of_lt ha]

theorem move_step_eq_some_iff : x.move c .step = some y ↔ y.phase = .running ∧ step x.block = .next y.block := by
  obtain ⟨phase, block⟩ := y
  cases hs : step x.block with
  | next t => simp [Session.move, hs, eq_comm]
  | fault r => simp [Session.move, hs]
  | refused r => simp [Session.move, hs]

/-- Settles O54, from the equation of each move, the memory's read after a write, and that an enabled block has a step. -/
theorem hostMovesKeepToTheirPhases : Obligations.HostMovesKeepToTheirPhases := by
  intro c x
  refine ⟨move_reset, fun a v h => move_load_of_running h a v, ?load, fun y => move_step_eq_some_iff.mp, ?step⟩
  case load =>
    intro a v h ha
    have read := memRead_withMem_poke x.block ha v
    refine ⟨_, move_load_of_loading h ha v, ?_, fun d hd => ?_, rfl⟩
    · rw [read, if_pos rfl]
    · rw [read, if_neg hd]
  case step =>
    intro enabled
    obtain ⟨t, ht⟩ := exists_step_eq_next enabled
    exact ⟨⟨.running, t⟩, move_step_eq_some_iff.mpr ⟨rfl, ht⟩⟩

end Sys2Proof.Machine
end

section
/-! What an instruction can do, as a relation with one rule per instruction, and the operand byte that keeps it from
retiring. Facts about every instruction are derived by cases on these. -/

namespace Sys2Proof.Machine

/-- The instruction run in `s` retires in this state: its effect and the pc advance (R71, R73). -/
inductive Retires (s : State) : Instr → State → Prop
  | hlt : Retires s .hlt (State.advance { s with halted := true } 0)
  | push {r : Byte} (h : r.toNat < 8) :
    Retires s (.push r) ((s.preDecrement.withMem
      (s.preDecrement.mem.poke s.preDecrement.sp.toNat (s.preDecrement.reg ⟨r.toNat, h⟩))).advance 1)
  | pop {r : Byte} (h : r.toNat < 8) :
    Retires s (.pop r) ((s.setReg ⟨r.toNat, h⟩ (s.mem.peek s.sp.toNat).toNat).postIncrement.advance 1)
  | prn {r : Byte} (h : r.toNat < 8) : Retires s (.prn r) ((s.emit (s.reg ⟨r.toNat, h⟩)).advance 1)
  | ldi {r v : Byte} (h : r.toNat < 8) : Retires s (.ldi r v) ((s.setReg ⟨r.toNat, h⟩ v.toNat).advance 2)
  | mul {a b : Byte} (ha : a.toNat < 8) (hb : b.toNat < 8) :
    Retires s (.mul a b)
      ((s.setReg ⟨a.toNat, ha⟩ ((s.reg ⟨a.toNat, ha⟩).toNat * (s.reg ⟨b.toNat, hb⟩).toNat)).advance 2)
  | unrecognized {b : Byte} : Retires s (.unrecognized b) (s.advance 0)

/-- The first register operand that names no register: the one that is raised (R69, R102). -/
def invalidOperand (i : Instr) : Option Byte := (registerOperands i).find? (fun b => decide (8 ≤ b.toNat))

variable {i : Instr} {s t : State} {b : Byte}

theorem invalidOperand_eq_none_iff : invalidOperand i = none ↔ ValidRegisters i := by
  simp [invalidOperand, ValidRegisters]

theorem Retires.exec_eq (h : Retires s i t) : exec i s = .next t := by
  cases h with
  | hlt => exact exec_hlt
  | push h => exact exec_push h
  | pop h => exact exec_pop h
  | prn h => exact exec_prn h
  | ldi h => exact exec_ldi h
  | mul ha hb => exact exec_mul ha hb
  | unrecognized => exact exec_unrecognized

theorem exists_retires (h : ValidRegisters i) (s : State) : ∃ t, Retires s i t := by
  cases i with
  | hlt => exact ⟨_, .hlt⟩
  | unrecognized b => exact ⟨_, .unrecognized⟩
  | push r => exact ⟨_, .push (h r (by simp [registerOperands]))⟩
  | pop r => exact ⟨_, .pop (h r (by simp [registerOperands]))⟩
  | prn r => exact ⟨_, .prn (h r (by simp [registerOperands]))⟩
  | ldi r v => exact ⟨_, .ldi (h r (by simp [registerOperands]))⟩
  | mul a b => exact ⟨_, .mul (h a (by simp [registerOperands])) (h b (by simp [registerOperands]))⟩

theorem invalidOperand_of_single {r : Byte} (hi : registerOperands i = [r]) :
    invalidOperand i = some b ↔ r = b ∧ 8 ≤ b.toNat := by
  simp only [invalidOperand, hi, List.find?_singleton]
  grind

theorem invalidOperand_of_pair {r q : Byte} (hi : registerOperands i = [r, q]) :
    invalidOperand i = some b ↔ (r = b ∧ 8 ≤ b.toNat) ∨ (r.toNat < 8 ∧ q = b ∧ 8 ≤ b.toNat) := by
  simp only [invalidOperand, hi, List.find?_cons]
  grind

/-- An invalid operand is taken as a fault in the state before the instruction (R69, R95, R99). -/
theorem exec_of_invalidOperand (h : invalidOperand i = some b) (s : State) :
    exec i s = .next (s.takeFault (some i.opcode) (.invalidRegister b.toNat)) := by
  cases i with
  | hlt => simp [invalidOperand, registerOperands] at h
  | unrecognized => simp [invalidOperand, registerOperands] at h
  | push r =>
    obtain ⟨rfl, h8⟩ := (invalidOperand_of_single rfl).mp h
    exact exec_push_invalid h8
  | pop r =>
    obtain ⟨rfl, h8⟩ := (invalidOperand_of_single rfl).mp h
    exact exec_pop_invalid h8
  | prn r =>
    obtain ⟨rfl, h8⟩ := (invalidOperand_of_single rfl).mp h
    exact exec_prn_invalid h8
  | ldi r v =>
    obtain ⟨rfl, h8⟩ := (invalidOperand_of_single rfl).mp h
    exact exec_ldi_invalid h8
  | mul r q =>
    obtain ⟨rfl, h8⟩ | ⟨hr, rfl, h8⟩ := (invalidOperand_of_pair rfl).mp h
    · exact exec_mul_invalid_first h8
    · exact exec_mul_invalid_second hr h8

/-- The inversion of a meaning: the instruction retires, or takes the fault of its first invalid operand. -/
theorem exec_inversion (h : exec i s = .next t) :
    Retires s i t ∨
    ∃ b, invalidOperand i = some b ∧ t = s.takeFault (some i.opcode) (.invalidRegister b.toNat) := by
  cases hb : invalidOperand i with
  | none =>
    obtain ⟨u, hu⟩ := exists_retires (invalidOperand_eq_none_iff.mp hb) s
    rw [hu.exec_eq] at h
    injection h with h
    exact .inl (h ▸ hu)
  | some b =>
    rw [exec_of_invalidOperand hb] at h
    injection h with h
    exact .inr ⟨b, rfl, h.symm⟩

end Sys2Proof.Machine
end

section
/-! Registers: writes modulo 256, invalid operands, and the stack (10_state.md R17, R18, 43_stack.md). -/

namespace Sys2Proof.Machine

/-- Settles O26, by the register write's own lemmas. -/
theorem registerWriteKeepsTheValueModulo256 : Obligations.RegisterWriteKeepsTheValueModulo256 := by
  intro s i v hi
  refine ⟨_, writeX_of_lt hi v, ⟨narrow v, ?_, narrow_toNat v⟩, fun j hj => ?_, rfl⟩
  · rw [readX_setReg, if_pos rfl]
  · rw [readX_setReg, if_neg hj]

/-- Settles O27: in each form the byte is the instruction's first invalid operand. -/
theorem invalidRegisterOperandIsRaised : Obligations.InvalidRegisterOperandIsRaised := by
  intro s
  refine ⟨fun i v hi => ⟨readX_of_ge hi, writeX_of_ge hi v⟩, fun b hb i hi => ?_⟩
  have first : invalidOperand i = some b := by
    have single (h : registerOperands i = [b]) : invalidOperand i = some b :=
      (invalidOperand_of_single h).mpr ⟨rfl, hb⟩
    rcases hi with rfl | rfl | rfl | ⟨v, rfl⟩ | ⟨c, rfl⟩ | ⟨a, ha, rfl⟩
    · exact single rfl
    · exact single rfl
    · exact single rfl
    · exact single rfl
    · exact (invalidOperand_of_pair rfl).mpr (.inl ⟨rfl, hb⟩)
    · exact (invalidOperand_of_pair rfl).mpr (.inr ⟨ha, rfl, hb⟩)
  exact exec_of_invalidOperand first s

theorem toNat_eq_seven_iff {r : Byte} : r.toNat = 7 ↔ r = 7 :=
  ⟨fun h => BitVec.eq_of_toNat_eq h, fun h => congrArg BitVec.toNat h⟩

/-- PUSH reads its register after the decrement (R88). -/
theorem reg_preDecrement (s : State) {r : Byte} (h : r.toNat < 8) :
    s.preDecrement.reg ⟨r.toNat, h⟩ = if r = 7 then s.sp - 1 else s.reg ⟨r.toNat, h⟩ := by
  have read := readX_preDecrement s r.toNat
  simp only [readX_of_lt h, toNat_eq_seven_iff, ← apply_ite Except.ok] at read
  exact Except.ok.inj read

/-- POP increments the sp that its register write left (R89). -/
theorem sp_setReg (s : State) {r : Byte} (h : r.toNat < 8) (v : Byte) :
    (s.setReg ⟨r.toNat, h⟩ v.toNat).sp = if r = 7 then v else s.sp := by
  have read := readX_setReg s ⟨r.toNat, h⟩ v.toNat 7
  simp only [readX_sp, narrow_toNat_self, eq_comm (a := 7), toNat_eq_seven_iff, ← apply_ite Except.ok] at read
  exact Except.ok.inj read

theorem sp_eq_of_readX {s : State} {sp : Byte} (h : s.readX 7 = .ok sp) : s.sp = sp :=
  Except.ok.inj ((readX_sp s).symm.trans h)

/-- Settles O34, from the retirement of PUSH and the register read after the decrement. -/
theorem pushStoresBelowTheStackPointer : Obligations.PushStoresBelowTheStackPointer := by
  intro s r sp x hsp hx
  obtain ⟨hr, rfl⟩ := readX_ok hx
  obtain rfl := sp_eq_of_readX hsp
  refine ⟨_, exec_push hr, ?register, ?cell, rfl, rfl⟩
  case register => simp [readX_preDecrement]
  case cell =>
    rw [memRead_advance, memRead_withMem_poke _ (BitVec.isLt _), sp_preDecrement, if_pos rfl, reg_preDecrement]

/-- Settles O35, from the retirement of POP and the sp its register write leaves. -/
theorem popLoadsFromTheStackPointer : Obligations.PopLoadsFromTheStackPointer := by
  intro s r sp v hr hsp hv
  obtain rfl := sp_eq_of_readX hsp
  obtain ⟨-, rfl⟩ := memRead_ok hv
  refine ⟨_, exec_pop hr, ?_, ?_, rfl, rfl⟩
  · rw [readX_advance, readX_postIncrement, sp_setReg, readX_setReg]
    simp only [toNat_eq_seven_iff]
    split <;> simp
  · rw [readX_advance, readX_postIncrement, sp_setReg, if_pos rfl]
    split <;> rfl

end Sys2Proof.Machine
end

section
/-! What every step keeps (10_state.md R24, R26, R28, R30). -/

namespace Sys2Proof.Machine

variable {i : Instr} {s t : State}

/-! ### The instruction at the pc -/

theorem current_opcode : s.current.opcode = s.mem.peek s.pc := instrOf_opcode ..

theorem current_eq_hlt_iff : s.current = .hlt ↔ s.mem.peek s.pc = 0x01 := by
  constructor
  · intro h
    rw [← current_opcode, h, Instr.opcode]
  · intro h
    rw [State.current, h]
    rfl

theorem current_eq_prn {b : Byte} (h : s.current = .prn b) :
    s.mem.peek s.pc = 0x47 ∧ s.mem.peek (s.pc + 1) = b := by
  have op : s.mem.peek s.pc = 0x47 := by rw [← current_opcode, h, Instr.opcode]
  rw [State.current, op] at h
  exact ⟨op, Instr.prn.inj h⟩

/-! ### The three ways of a step, as equations -/

theorem step_outside (en : s.Enabled) (h : 256 ≤ s.pc) : step s = .next (s.takeFault none (.outOfRange s.pc)) := by
  obtain ⟨-, e⟩ | ⟨hpc, -, -⟩ | ⟨hpc, -⟩ := step_enabled en
  · exact e
  · omega
  · omega

theorem step_truncated (en : s.Enabled) (hpc : s.pc < 256) (h : 256 ≤ s.pc + (decodeOpcode (s.mem.peek s.pc)).2) :
    step s = .next (s.takeFault (some (s.mem.peek s.pc)) (.outOfRange 256)) := by
  obtain ⟨h', -⟩ | ⟨-, -, e⟩ | ⟨h', -⟩ := step_enabled en
  · omega
  · exact e
  · omega

theorem step_inside (en : s.Enabled) (h : s.pc + (decodeOpcode (s.mem.peek s.pc)).2 < 256) :
    step s = exec s.current s := by
  obtain ⟨h', -⟩ | ⟨-, h', -⟩ | ⟨-, e⟩ := step_enabled en
  · omega
  · omega
  · exact e

/-! ### Faults -/

theorem step_of_halted (h : s.halted = true) : step s = .fault .halted := by
  simp [step, h]

theorem step_of_fault (hh : s.halted = false) (hf : s.fault ≠ none) : step s = .fault .faulted := by
  simp [step, hh, Option.isSome_iff_ne_none.mpr hf]

/-- A step that ends faulted took a fault in the state before it, of the fetch or of a register operand, and recorded the
opcode where there is one (R71, R99). -/
theorem eq_takeFault_of_step (h : step s = .next t) (hf : t.fault ≠ none) :
    ∃ op c, t = s.takeFault op c ∧ op = (if s.pc < 256 then some (s.mem.peek s.pc) else none) ∧
      ((∃ a, c = .outOfRange a) ∨ ∃ k, c = .invalidRegister k) := by
  obtain ⟨en, ⟨hpc, rfl⟩ | ⟨hpc, -, rfl⟩ | ⟨hpc, he⟩⟩ := step_cases h
  · exact ⟨_, _, rfl, by rw [if_neg (by omega)], .inl ⟨_, rfl⟩⟩
  · exact ⟨_, _, rfl, by rw [if_pos hpc], .inl ⟨_, rfl⟩⟩
  · obtain ⟨u, hu, -, hfault⟩ | ⟨b, -, -, hu⟩ := exec_cases s.current s <;> rw [hu] at he <;> injection he with he
    · exact absurd (by rw [← he, hfault, en.2]) hf
    · exact ⟨_, _, he.symm, by rw [if_pos (by omega), current_opcode], .inr ⟨_, rfl⟩⟩

/-- Settles O13, from the fault such a step took. -/
theorem faultingStepWritesOnlyTheRecord : Obligations.FaultingStepWritesOnlyTheRecord := by
  intro s t h hf
  obtain ⟨running, -⟩ := enabled_of_step h
  obtain ⟨op, c, rfl, rfl, hc⟩ := eq_takeFault_of_step h hf
  refine ⟨step_of_fault running hf, _, rfl, rfl, ?kind, ?outside, ?inside⟩
  case kind =>
    obtain ⟨a, rfl⟩ | ⟨k, rfl⟩ := hc
    · exact .inl ⟨rfl, rfl⟩
    · exact .inr ⟨rfl, rfl⟩
  case outside => exact fun hpc => if_neg (by omega)
  case inside =>
    intro b hb
    obtain ⟨hpc, rfl⟩ := memRead_ok hb
    exact if_pos hpc

/-! ### The pc -/

/-- Settles O17: a fault keeps the pc, and a retired instruction has its last byte inside memory. -/
theorem stepKeepsPcBounded : Obligations.StepKeepsPcBounded := by
  intro s t bound h
  obtain ⟨-, ⟨-, rfl⟩ | ⟨-, -, rfl⟩ | ⟨inside, he⟩⟩ := step_cases h
  · exact ⟨bound, le_rfl⟩
  · exact ⟨bound, le_rfl⟩
  · have count : s.current.operandCount = (decodeOpcode (s.mem.peek s.pc)).2 := instrOf_operandCount ..
    obtain ⟨u, hu, hpc, -⟩ | ⟨b, -, -, hu⟩ := exec_cases s.current s <;> rw [hu] at he <;> injection he with he
    · rw [count, he] at hpc
      exact ⟨(by omega : t.pc ≤ 258), by omega⟩
    · exact he ▸ ⟨bound, le_rfl⟩

/-! ### Halting -/

/-- Only HLT changes halted, and it sets it (R26, R91). -/
theorem exec_halted (h : exec i s = .next t) : t.halted = true ↔ s.halted = true ∨ i = .hlt := by
  obtain hr | ⟨b, hb, rfl⟩ := exec_inversion h
  · cases hr <;> simp
  · have : i ≠ .hlt := by rintro rfl; cases hb
    simp [this]

/-- Settles O20: a fault leaves halted, and a truncated instruction is no HLT, which has no operands. -/
theorem onlyHltSetsHalted : Obligations.OnlyHltSetsHalted := by
  refine ⟨fun s t h => ?_, fun i s t h hs => (exec_halted h).mpr (.inl hs), fun s => step_of_halted⟩
  obtain ⟨⟨running, -⟩, ⟨hpc, rfl⟩ | ⟨hpc, truncated, rfl⟩ | ⟨inside, he⟩⟩ := step_cases h
  · simp [running, memRead_of_ge hpc]
  · have : s.mem.peek s.pc ≠ 0x01 := by
      intro e
      rw [e] at truncated
      exact absurd hpc (not_lt.mpr truncated)
    simpa [running, memRead_of_lt hpc] using this
  · have hpc : s.pc < 256 := by omega
    simp [exec_halted he, running, current_eq_hlt_iff, memRead_of_lt hpc]

/-! ### The output -/

/-- An instruction leaves the output alone or is a PRN that appends its register (R80). -/
theorem exec_out (h : exec i s = .next t) :
    t.out = s.out ∨ ∃ b v, i = .prn b ∧ s.readX b.toNat = .ok v ∧ t.out = s.out ++ [v] := by
  obtain hr | ⟨b, -, rfl⟩ := exec_inversion h
  · cases hr with
    | prn h8 => exact .inr ⟨_, _, rfl, readX_of_lt h8, rfl⟩
    | _ => exact .inl rfl
  · exact .inl rfl

/-- Settles O21: a fault leaves the output, and the instruction at the pc is the PRN that the bytes there encode. -/
theorem onlyPrnAppendsToOutput : Obligations.OnlyPrnAppendsToOutput := by
  intro s t h
  obtain ⟨-, ⟨-, rfl⟩ | ⟨-, -, rfl⟩ | ⟨inside, he⟩⟩ := step_cases h
  · exact .inl rfl
  · exact .inl rfl
  · refine (exec_out he).imp_right ?_
    rintro ⟨b, v, hi, hv, hout⟩
    obtain ⟨op, rfl⟩ := current_eq_prn hi
    rw [op] at inside
    have hpc : s.pc + 1 < 256 := inside
    exact ⟨by rw [memRead_of_lt (by omega), op], _, v, memRead_of_lt hpc, hv, hout⟩

/-- An instruction that retires does the same with any other output in its place, and appends the same. -/
theorem Retires.withOut (h : Retires s i t) :
    (t.out = s.out ∧ ∀ o, Retires { s with out := o } i { t with out := o }) ∨
    ∃ v, t.out = s.out ++ [v] ∧ ∀ o, Retires { s with out := o } i { t with out := o ++ [v] } := by
  cases h with
  | hlt => exact .inl ⟨rfl, fun _ => .hlt⟩
  | push h => exact .inl ⟨rfl, fun _ => .push h⟩
  | pop h => exact .inl ⟨rfl, fun _ => .pop h⟩
  | prn h => exact .inr ⟨_, rfl, fun _ => .prn h⟩
  | ldi h => exact .inl ⟨rfl, fun _ => .ldi h⟩
  | mul ha hb => exact .inl ⟨rfl, fun _ => .mul ha hb⟩
  | unrecognized => exact .inl ⟨rfl, fun _ => .unrecognized⟩

theorem exec_withOut (h : exec i s = .next t) :
    ∃ d, t.out = s.out ++ d ∧ ∀ o, exec i { s with out := o } = .next { t with out := o ++ d } := by
  obtain hr | ⟨b, hb, rfl⟩ := exec_inversion h
  · obtain ⟨hout, hr⟩ | ⟨v, hout, hr⟩ := hr.withOut
    · exact ⟨[], by simpa using hout, fun o => by simpa using (hr o).exec_eq⟩
    · exact ⟨[v], hout, fun o => (hr o).exec_eq⟩
  · exact ⟨[], by simp, fun o => by rw [exec_of_invalidOperand hb, List.append_nil]; rfl⟩

/-- Settles O22: no condition of a step and no instruction reads the output. -/
theorem outputIsNeverRead : Obligations.OutputIsNeverRead := by
  intro s t o h
  obtain ⟨en, ⟨hpc, rfl⟩ | ⟨hpc, truncated, rfl⟩ | ⟨inside, he⟩⟩ := step_cases h
  · exact ⟨[], by simp, by rw [List.append_nil]; exact step_outside (s := { s with out := o }) en hpc⟩
  · exact ⟨[], by simp, by rw [List.append_nil]; exact step_truncated (s := { s with out := o }) en hpc truncated⟩
  · obtain ⟨d, hout, hany⟩ := exec_withOut he
    exact ⟨d, hout, (step_inside (s := { s with out := o }) en inside).trans (hany o)⟩

/-! ### Reset -/

/-- Settles O19: reset's memory lists nothing, its pc is 0 and no fault is recorded. -/
theorem resetMeetsTheInvariants : Obligations.ResetMeetsTheInvariants :=
  fun c => ⟨wf_resetWith c, Nat.zero_le 258, fun _ hf => nomatch hf⟩

end Sys2Proof.Machine
end

section
/-! The memory (20_memory.md): one access, what a step writes, the instruction the bytes at the pc spell, bytes placed from an
address on, and the host's load. -/

namespace Sys2Proof.Machine

variable {i : Instr} {s t : State}

/-! ### One access -/

/-- Settles O28, by the memory access's own equations and its read after a write. -/
theorem memoryAccessReadsAndWritesOneCell : Obligations.MemoryAccessReadsAndWritesOneCell := by
  intro s a v
  refine ⟨fun ha => ⟨memRead_of_ge ha, memWrite_of_ge ha v⟩, fun ha => ⟨⟨_, memRead_of_lt ha⟩, ?_⟩⟩
  have read := memRead_withMem_poke s ha v
  refine ⟨_, memWrite_of_lt ha v, ?_, fun c hc => ?_, rfl⟩
  · rw [read, if_pos rfl]
  · rw [read, if_neg hc]

/-! ### What a step writes -/

theorem current_eq_push {r : Byte} (h : s.current = .push r) : s.mem.peek s.pc = 0x45 := by
  rw [← current_opcode, h, Instr.opcode]

/-- A step leaves the memory alone or, at a PUSH, writes one cell (R37). -/
theorem step_mem (h : step s = .next t) :
    t.mem = s.mem ∨ (s.memRead s.pc = .ok 0x45 ∧ ∃ sp v : Byte, t.mem = s.mem.poke sp.toNat v) := by
  obtain ⟨-, ⟨-, rfl⟩ | ⟨-, -, rfl⟩ | ⟨inside, he⟩⟩ := step_cases h
  · exact .inl rfl
  · exact .inl rfl
  · refine (exec_mem he).imp_right ?_
    rintro ⟨r, hi, hr, hmem⟩
    exact ⟨by rw [memRead_of_lt (by omega), current_eq_push hi], _, _, hmem⟩

/-- Settles O16: the one cell a step can write has a byte as its address, so it is inside memory. -/
theorem stepKeepsMemoryCanonical : Obligations.StepKeepsMemoryCanonical := by
  intro s t canonical h
  obtain same | ⟨-, sp, v, written⟩ := step_mem h
  · rwa [State.MemoryCanonical, same]
  · rw [State.MemoryCanonical, written]
    exact wf_poke sp.isLt v canonical

/-- Settles O23: a step that wrote memory was at a PUSH. -/
theorem onlyPushWritesMemory : Obligations.OnlyPushWritesMemory := by
  intro s t h notPush a
  obtain same | ⟨push, -⟩ := step_mem h
  · exact memRead_congr same a
  · exact absurd push notPush

/-! ### The bytes at the pc as an instruction -/

/-- The decoder's answer to a well-formed instruction's opcode and operand bytes is that instruction (R52, R53). -/
theorem instrOf_eq (wf : i.WellFormed) {b1 b2 : Byte} (h1 : ∀ h : 0 < i.operands.length, b1 = i.operands[0])
    (h2 : ∀ h : 1 < i.operands.length, b2 = i.operands[1]) : instrOf i.opcode b1 b2 = i := by
  cases i with
  | hlt => rfl
  | push r => exact congrArg Instr.push (h1 Nat.one_pos)
  | pop r => exact congrArg Instr.pop (h1 Nat.one_pos)
  | prn r => exact congrArg Instr.prn (h1 Nat.one_pos)
  | ldi r v => exact congrArg₂ Instr.ldi (h1 Nat.two_pos) (h2 Nat.one_lt_two)
  | mul r q => exact congrArg₂ Instr.mul (h1 Nat.two_pos) (h2 Nat.one_lt_two)
  | unrecognized b =>
    have hb : recognizedBytes.contains b = false := by simpa [Instr.WellFormed, Instr.wf] using wf
    simp [instrOf, Instr.opcode, decodeOpcode_unrecognized hb]

theorem decodeOpcode_count (wf : i.WellFormed) : (decodeOpcode i.opcode).2 = i.operands.length := by
  cases i with
  | unrecognized b => exact (Laws.OperandBytes.unrecognized b wf).1
  | _ => rfl

/-- An enabled block runs the well-formed instruction whose opcode and operand bytes lie at the pc (R66 to R70). -/
theorem step_eq_exec (en : s.Enabled) (wf : i.WellFormed) (hop : s.memRead s.pc = .ok i.opcode)
    (hopd : ∀ (k : Nat) (h : k < i.operands.length), s.memRead (s.pc + 1 + k) = .ok i.operands[k]) :
    step s = exec i s := by
  obtain ⟨hpc, op⟩ := memRead_ok hop
  have operand (k : Nat) (h : k < i.operands.length) := memRead_ok (hopd k h)
  have inside : s.pc + (decodeOpcode (s.mem.peek s.pc)).2 < 256 := by
    rw [op, decodeOpcode_count wf]
    rcases Nat.eq_zero_or_pos i.operands.length with empty | nonempty
    · omega
    · have := (operand (i.operands.length - 1) (by omega)).1
      omega
  have current : s.current = i := by
    rw [State.current, op]
    exact instrOf_eq wf (fun h => (operand 0 h).2) (fun h => (operand 1 h).2)
  rw [step_inside en inside, current]

/-- Settles O24: the PUSH retires with its byte at the new pc, and there the next step reads its opcode. -/
theorem pushedByteIsFetchedByTheNextStep : Obligations.PushedByteIsFetchedByTheNextStep := by
  intro s r sp x en hop hr hsp target hx
  obtain ⟨t, ht, -, pushed, hpc, hfault⟩ := pushStoresBelowTheStackPointer s r sp x hsp hx
  have fetched : t.memRead t.pc = .ok (if r = 7 then sp - 1 else x) := by rw [hpc, ← target, pushed]
  have running : t.halted = false := by simpa [en.1] using exec_halted ht
  have enabled : t.Enabled := ⟨running, hfault.trans en.2⟩
  have stepped : step s = exec (.push r) s := step_eq_exec en rfl hop fun k hk => by
    obtain rfl : k = 0 := Nat.lt_one_iff.mp hk
    exact hr
  refine ⟨t, _, rfl, stepped.trans ht, hpc, fetched, fun i wf opcode operands => ?_, fun truncated => ?_⟩
  · exact step_eq_exec enabled wf (opcode ▸ fetched) operands
  · obtain ⟨inside, byte⟩ := memRead_ok fetched
    rw [← byte] at truncated ⊢
    exact step_truncated enabled inside truncated

/-! ### Bytes placed from an address on -/

/-- A read after a placement inside memory: the placed bytes from `k` on, and every other cell its own content. -/
theorem peek_place (a : Nat) : ∀ (l : List Byte) (m : Memory) (k : Nat), k + l.length ≤ 256 →
    (m.place k l).peek a = if k ≤ a then l[a - k]?.getD (m.peek a) else m.peek a
  | [], m, k, _ => by simp [Memory.place]
  | b :: l, m, k, bound => by
    rw [List.length_cons] at bound
    have hk : k < 256 := by omega
    rw [Memory.place, if_pos hk, peek_place a l _ _ (by omega), peek_poke]
    rcases Nat.lt_trichotomy a k with below | rfl | above
    · rw [if_neg (by omega), if_neg (by omega), if_neg (by omega)]
    · simp
    · have shift : a - k = a - (k + 1) + 1 := by omega
      rw [if_pos (by omega), if_neg (by omega), if_pos (by omega), shift, List.getElem?_cons_succ]

/-! ### The loader -/

/-- Good tokens within memory are placed one after another, and the load goes on with the tokens after them (R115). -/
theorem loadTokens_append {tail : List (List Char)} : ∀ {good : List (List Char)} {bytes : List Byte},
    good.map tokenByte = bytes.map some → ∀ (k : Nat) (m : Memory), k + bytes.length ≤ 256 →
    loadTokens k (good ++ tail) m = loadTokens (k + bytes.length) tail (m.place k bytes)
  | [], [], _, _, _, _ => rfl
  | token :: good, b :: bytes, spell, k, m, bound => by
    obtain ⟨here, others⟩ := List.cons_eq_cons.mp spell
    rw [List.length_cons] at bound ⊢
    have hk : k < 256 := by omega
    rw [List.cons_append, loadTokens, if_neg (not_le.mpr hk), here, Memory.place, if_pos hk]
    dsimp only
    rw [loadTokens_append others _ _ (by omega)]
    congr 1
    omega

theorem loadTokens_bad {k : Nat} (hk : k < 256) {bad : List Char} (h : tokenByte bad = none) (rest : List (List Char))
    (m : Memory) : loadTokens k (bad :: rest) m = { mem := m, error := some (.malformedProgram k) } := by
  simp [loadTokens, h, hk]

theorem loadTokens_full {k : Nat} (hk : 256 ≤ k) (extra : List Char) (rest : List (List Char)) (m : Memory) :
    loadTokens k (extra :: rest) m = { mem := m, error := some .programTooLarge } := by
  simp [loadTokens, hk]

/-- Settles O52: the good tokens are placed from cell 0 on, and what comes after them decides the result. -/
theorem loaderWritesTokensUntilTheFirstError : Obligations.LoaderWritesTokensUntilTheFirstError := by
  intro good bytes spell bound
  have load (tail : List (List Char)) :
      loadTokens 0 (good ++ tail) { cells := [] } = loadTokens bytes.length tail (Memory.place ⟨[]⟩ 0 bytes) := by
    rw [loadTokens_append spell 0 _ (by omega), Nat.zero_add]
  have read (a : Nat) : (Memory.place ⟨[]⟩ 0 bytes).peek a = bytes[a]?.getD 0 := by
    rw [peek_place a bytes _ 0 (by omega), if_pos (Nat.zero_le a)]
    rfl
  refine ⟨Memory.place ⟨[]⟩ 0 bytes, fun k hk => ?_, fun a ha => ?_, wf_place bytes _ 0 wf_empty, ?_,
    fun bad rest hbad hlt => ?_, fun extra rest hlen => ?_⟩
  · rw [read, List.getElem?_eq_getElem hk, Option.getD_some]
  · rw [read, List.getElem?_eq_none ha, Option.getD_none]
  · simpa [loadTokens] using load []
  · rw [load, loadTokens_bad hlt hbad]
  · rw [load, loadTokens_full hlen.ge]

end Sys2Proof.Machine
end

section
/-! Encoding and decoding (30_encoding.md R49 to R55): every list of bytes is empty, ends before its last operand, or is the
encoding of one well-formed instruction and a rest; the decoder's answer to each of the three. -/

namespace Sys2Proof.Machine

variable {i : Instr} {op : Byte} {bytes tl rest : List Byte}

/-- An unrecognized instruction carries none of the six opcode bytes (R54). -/
theorem wellFormed_unrecognized_iff {b : Byte} :
    (Instr.unrecognized b).WellFormed ↔ recognizedBytes.contains b = false :=
  iff_of_eq (Bool.not_eq_true' _)

/-! ### The decoder's answers -/

theorem decode_nil : decode [] = .error .noOpcode := rfl

/-- Decoding the bytes of a well-formed instruction gives it back, with the bytes after it (R49 to R53). -/
theorem decode_encode_append (wf : i.WellFormed) (rest : List Byte) : decode (encode i ++ rest) = .ok (i, rest) := by
  cases i with
  | hlt | push | pop | prn | ldi | mul => rfl
  | unrecognized b =>
    have unrecognized := decodeOpcode_unrecognized (wellFormed_unrecognized_iff.mp wf)
    have read : decodeWith (byteOfList (b :: rest)) = .ok (.unrecognized b) := by
      simp [decodeWith, byteOfList, unrecognized, bind, Except.bind, pure, Except.pure]
    simp [encode, Instr.opcode, Instr.operands, decode, read, Instr.length, Instr.operandCount]

/-- Fewer bytes after the opcode than its operand count: the first one missing is named (R55). -/
theorem decode_truncated (short : tl.length < (decodeOpcode op).2) :
    decode (op :: tl) = .error (.missingOperand op (tl.length + 1)) := by
  have one (h : tl.length < 1) : tl = [] := List.length_eq_zero_iff.mp (Nat.lt_one_iff.mp h)
  have two (h : tl.length < 2) : tl = [] ∨ ∃ b, tl = [b] := by
    match tl, h with
    | [], _ => exact .inl rfl
    | [b], _ => exact .inr ⟨b, rfl⟩
  rcases decodeOpcode_cases op with ⟨-, e⟩ | ⟨rfl, e⟩ | ⟨rfl, e⟩ | ⟨rfl, e⟩ | ⟨rfl, e⟩ | ⟨rfl, e⟩ | ⟨-, e⟩ <;>
    rw [e] at short
  case inl | inr.inr.inr.inr.inr.inr => exact absurd short (Nat.not_lt_zero _)
  case inr.inl | inr.inr.inl | inr.inr.inr.inl => rw [one short]; rfl
  case inr.inr.inr.inr.inl | inr.inr.inr.inr.inr.inl => obtain rfl | ⟨b, rfl⟩ := two short <;> rfl

/-! ### What the bytes of a list are -/

/-- Every opcode byte, with as many bytes after it as its operand count, encodes an instruction (R52 to R54). -/
theorem exists_encode_eq {operands : List Byte} (count : operands.length = (decodeOpcode op).2) :
    ∃ i : Instr, i.WellFormed ∧ encode i = op :: operands := by
  rcases decodeOpcode_cases op with ⟨rfl, e⟩ | ⟨rfl, e⟩ | ⟨rfl, e⟩ | ⟨rfl, e⟩ | ⟨rfl, e⟩ | ⟨rfl, e⟩ | ⟨hb, e⟩ <;>
    rw [e] at count
  · obtain rfl := List.length_eq_zero_iff.mp count
    exact ⟨.hlt, rfl, rfl⟩
  · obtain ⟨r, rfl⟩ := List.length_eq_one_iff.mp count
    exact ⟨.push r, rfl, rfl⟩
  · obtain ⟨r, rfl⟩ := List.length_eq_one_iff.mp count
    exact ⟨.pop r, rfl, rfl⟩
  · obtain ⟨r, rfl⟩ := List.length_eq_one_iff.mp count
    exact ⟨.prn r, rfl, rfl⟩
  · obtain ⟨r, v, rfl⟩ := List.length_eq_two.mp count
    exact ⟨.ldi r v, rfl, rfl⟩
  · obtain ⟨r, q, rfl⟩ := List.length_eq_two.mp count
    exact ⟨.mul r q, rfl, rfl⟩
  · obtain rfl := List.length_eq_zero_iff.mp count
    exact ⟨.unrecognized op, wellFormed_unrecognized_iff.mpr hb, rfl⟩

/-- An opcode byte with at least its operand count of bytes after it begins with the encoding of an instruction. -/
theorem exists_encode_append_eq (enough : (decodeOpcode op).2 ≤ tl.length) :
    ∃ (i : Instr) (rest : List Byte), i.WellFormed ∧ op :: tl = encode i ++ rest := by
  obtain ⟨i, wf, hi⟩ := exists_encode_eq (op := op) (List.length_take_of_le enough)
  exact ⟨i, tl.drop (decodeOpcode op).2, wf, by rw [hi, List.cons_append, List.take_append_drop]⟩

/-- Settles O1, by the decoder's answer to each instruction's bytes. -/
theorem decodeOfEncodeIsTheInstruction : Obligations.DecodeOfEncodeIsTheInstruction :=
  fun _ rest wf => decode_encode_append wf rest

/-- Settles O2: the bytes are no truncated instruction, so they begin with an encoding, and that decodes to itself. -/
theorem encodeOfDecodeIsTheBytes : Obligations.EncodeOfDecodeIsTheBytes := by
  intro bytes rest i h
  cases bytes with
  | nil => cases decode_nil.symm.trans h
  | cons op tl =>
    rcases Nat.lt_or_ge tl.length (decodeOpcode op).2 with short | enough
    · cases (decode_truncated short).symm.trans h
    · obtain ⟨j, rest', wf, bytes⟩ := exists_encode_append_eq enough
      rw [bytes] at h ⊢
      cases (decode_encode_append wf rest').symm.trans h
      exact ⟨wf, rfl⟩

/-! ### Lengths -/

theorem length_encode (i : Instr) : (encode i).length = i.length := by
  cases i <;> rfl

theorem length_eq_of_wellFormed (wf : i.WellFormed) : i.length = 1 + (decodeOpcode i.opcode).2 := by
  cases i with
  | unrecognized b => rw [decodeOpcode_count wf]; rfl
  | _ => rfl

theorem instr_length_cases (i : Instr) : i.length = 1 ∨ i.length = 2 ∨ i.length = 3 := by
  cases i <;> simp [Instr.length, Instr.operandCount]

/-- What decodes begins with its opcode, and that alone decides its length (R49). -/
theorem opcode_and_length_of_decode (h : decode (op :: tl) = .ok (i, rest)) :
    i.opcode = op ∧ i.length = 1 + (decodeOpcode op).2 := by
  obtain ⟨wf, bytes⟩ := encodeOfDecodeIsTheBytes _ _ _ h
  obtain rfl : op = i.opcode := List.head_eq_of_cons_eq bytes
  exact ⟨rfl, length_eq_of_wellFormed wf⟩

/-- Settles O4: the bytes are the encoding and the rest, and the opcode alone gives the encoding's length. -/
theorem opcodeAloneDecidesLength : Obligations.OpcodeAloneDecidesLength := by
  intro op tl rest i h
  obtain ⟨opcode, length⟩ := opcode_and_length_of_decode h
  refine ⟨opcode, ?_, length, instr_length_cases i, fun unrecognized => ?_, fun tl' rest' j h' => ?_⟩
  · rw [(encodeOfDecodeIsTheBytes _ _ _ h).2, List.length_append, length_encode]
  · rw [length, decodeOpcode_unrecognized unrecognized, Nat.add_zero]
  · rw [length, (opcode_and_length_of_decode h').2]

/-! ### Where bytes are missing -/

theorem decode_eq_error_iff {e : DecodeError} : decode (op :: tl) = .error e ↔
    tl.length < (decodeOpcode op).2 ∧ e = .missingOperand op (tl.length + 1) := by
  rcases Nat.lt_or_ge tl.length (decodeOpcode op).2 with short | enough
  · simp [decode_truncated short, short, eq_comm]
  · obtain ⟨i, rest, wf, bytes⟩ := exists_encode_append_eq enough
    simp [bytes, decode_encode_append wf, enough]

theorem exists_decode_eq_ok_iff :
    (∃ i rest, decode (op :: tl) = .ok (i, rest)) ↔ (decodeOpcode op).2 ≤ tl.length := by
  rcases Nat.lt_or_ge tl.length (decodeOpcode op).2 with short | enough
  · simp [decode_truncated short, short]
  · obtain ⟨i, rest, wf, bytes⟩ := exists_encode_append_eq enough
    simp [bytes, decode_encode_append wf, enough]

/-- Settles O5: with an opcode, the bytes after it are fewer than its operand count or enough; without one, none is read. -/
theorem onlyMissingBytesAreRejected : Obligations.OnlyMissingBytesAreRejected := by
  intro bytes
  cases bytes with
  | nil => simp [decode_nil, eq_comm]
  | cons op tl => simp [decode_eq_error_iff, exists_decode_eq_ok_iff]

/-! ### The table -/

/-- Settles O3: the six by evaluation, and every other byte by the decoder's cases, the six of which it is not. -/
theorem opcodeMapIsExactlyTheSix : Obligations.OpcodeMapIsExactlyTheSix := by
  refine ⟨rfl, rfl, rfl, rfl, rfl, rfl, fun b h1 h2 h3 h4 h5 h6 => ?_⟩
  rcases decodeOpcode_cases b with ⟨h, -⟩ | ⟨h, -⟩ | ⟨h, -⟩ | ⟨h, -⟩ | ⟨h, -⟩ | ⟨h, -⟩ | ⟨-, e⟩
  exacts [absurd h h1, absurd h h2, absurd h h3, absurd h h4, absurd h h5, absurd h h6, e]

/-- Settles O6: each word is the encoding of the instruction it stands for. -/
theorem writtenWordsDecodeAsTheTableSays : Obligations.WrittenWordsDecodeAsTheTableSays :=
  ⟨decode_encode_append (i := .ldi 0 8) rfl [], decode_encode_append (i := .mul 0 1) rfl [],
    decode_encode_append (i := .push 3) rfl [], decode_encode_append (i := .pop 2) rfl [],
    decode_encode_append (i := .prn 255) rfl [], decode_encode_append (i := .hlt) rfl [],
    decode_encode_append (i := .unrecognized 0xA0) rfl [0, 1]⟩

/-! ### The immediate and the unrecognized byte as operations -/

/-- Settles O31, from the retirement of LDI and the read after a register write. -/
theorem ldiLoadsItsImmediate : Obligations.LdiLoadsItsImmediate := by
  intro s r imm hr
  refine ⟨_, exec_ldi hr, ?_, rfl, rfl⟩
  rw [readX_advance, readX_of_lt hr, reg_setReg_self, narrow_toNat_self]

/-- Settles O37, by the meaning of an unrecognized byte. -/
theorem unrecognizedByteIsSkipped : Obligations.UnrecognizedByteIsSkipped := fun _ _ => exec_unrecognized

end Sys2Proof.Machine
end

section
/-! Fetch, decode and dispatch (40_fetch_decode.md R62 to R75): when there is a step, what it runs or faults on, where a
retired one leaves the pc, and that every run stops. -/

namespace Sys2Proof.Machine

variable {i : Instr} {s t : State}

/-! ### When there is a step -/

/-- Settles O8, from the inversion of a step and the step of each state that is not enabled. -/
theorem stepsExactlyWhenEnabled : Obligations.StepsExactlyWhenEnabled :=
  fun _ => ⟨⟨fun ⟨_, h⟩ => enabled_of_step h, exists_step_eq_next⟩, step_of_halted, step_of_fault⟩

/-! ### What a step runs -/

/-- Settles O7: the encoding's first byte is the opcode and the others are the operands. -/
theorem stepRunsTheDecodedInstruction : Obligations.StepRunsTheDecodedInstruction := by
  intro s i en wf bytes
  have opcode : s.memRead s.pc = .ok i.opcode := bytes 0 (Nat.succ_pos _)
  refine step_eq_exec en wf opcode fun k hk => ?_
  rw [Nat.add_assoc, Nat.add_comm 1 k]
  exact bytes (k + 1) (Nat.succ_lt_succ hk)

/-- An opcode byte with its operand bytes inside memory begins the bytes of a well-formed instruction (R52 to R54, R68). -/
theorem exists_instr_at_pc {op : Byte} (inside : s.pc + (decodeOpcode op).2 < 256) :
    ∃ i : Instr, i.WellFormed ∧ i.opcode = op ∧ i.operands.length = (decodeOpcode op).2 ∧
      ∀ (k : Nat) (h : k < i.operands.length), s.memRead (s.pc + 1 + k) = .ok i.operands[k] := by
  obtain ⟨i, wf, bytes⟩ := exists_encode_eq (op := op)
    (operands := List.ofFn fun k : Fin (decodeOpcode op).2 => s.mem.peek (s.pc + 1 + k)) (List.length_ofFn ..)
  obtain ⟨opcode, operands⟩ := List.cons_eq_cons.mp bytes
  have length : i.operands.length = (decodeOpcode op).2 := by rw [operands, List.length_ofFn]
  refine ⟨i, wf, opcode, length, fun k hk => ?_⟩
  simp only [operands, List.getElem_ofFn]
  exact memRead_of_lt (by omega)

theorem Retires.fault_eq (h : Retires s i t) : t.fault = s.fault := by
  cases h <;> rfl

theorem Retires.pc_eq (h : Retires s i t) : t.pc = s.pc + 1 + i.operands.length := by
  cases h <;> rfl

theorem exists_invalidOperand (h : ¬ ValidRegisters i) : ∃ b, invalidOperand i = some b :=
  Option.ne_none_iff_exists'.mp (mt invalidOperand_eq_none_iff.mp h)

/-- From no fault, a meaning ends without one exactly where it retires, and that is where its register operands are valid
(R69, R71, R73). -/
theorem exists_exec_eq_next_fault_iff (hs : s.fault = none) (i : Instr) :
    ∃ t, exec i s = .next t ∧ (t.fault = none ↔ ValidRegisters i) ∧
      (ValidRegisters i → t.pc = s.pc + 1 + i.operands.length) := by
  by_cases valid : ValidRegisters i
  · obtain ⟨t, ht⟩ := exists_retires valid s
    exact ⟨t, ht.exec_eq, iff_of_true (ht.fault_eq.trans hs) valid, fun _ => ht.pc_eq⟩
  · obtain ⟨b, hb⟩ := exists_invalidOperand valid
    exact ⟨_, exec_of_invalidOperand hb s, iff_of_false (by simp) valid, fun h => absurd h valid⟩

/-- Settles O9: the bytes at the pc are those of one instruction, which the step runs and which retires or faults. -/
theorem everyOpcodeByteIsDispatched : Obligations.EveryOpcodeByteIsDispatched := by
  intro s op en hop inside
  obtain ⟨i, wf, rfl, length, operands⟩ := exists_instr_at_pc inside
  exact ⟨i, wf, rfl, length, operands, step_eq_exec en wf hop operands, exists_exec_eq_next_fault_iff en.2 i⟩

/-! ### Fetches outside memory -/

/-- Settles O10, by the step whose opcode lies outside memory. -/
theorem opcodeFetchOutsideMemoryFaults : Obligations.OpcodeFetchOutsideMemoryFaults :=
  fun _ en hpc => step_outside en hpc

/-- The one fault a meaning takes is InvalidRegister (R69, R84). -/
theorem kind_of_exec_fault (hs : s.fault = none) (h : exec i s = .next t) {f : FaultRecord} (hf : t.fault = some f) :
    f.kind = .invalidRegister := by
  obtain hr | ⟨b, -, rfl⟩ := exec_inversion h
  · cases (hr.fault_eq.trans hs).symm.trans hf
  · cases hf
    rfl

/-- Settles O11: a truncated instruction faults at 256, and a whole one is run, whose only fault is InvalidRegister. -/
theorem operandFetchOutsideMemoryFaults : Obligations.OperandFetchOutsideMemoryFaults := by
  intro s op en hop
  obtain ⟨hpc, rfl⟩ := memRead_ok hop
  refine ⟨step_truncated en hpc, fun inside => ?_⟩
  obtain ⟨t, ht⟩ := exists_exec_eq_next s.current s
  refine ⟨t, (step_inside en inside).trans ht, fun f hf => ?_⟩
  rw [kind_of_exec_fault en.2 ht hf]
  exact FaultKind.noConfusion

/-! ### Retirement -/

theorem current_operands_length (s : State) : s.current.operands.length = (decodeOpcode (s.mem.peek s.pc)).2 := by
  have wf : s.current.WellFormed := instrOf_wellFormed ..
  rw [← decodeOpcode_count wf, current_opcode]

/-- A step that ends without a fault had its instruction inside memory and left the pc past it (R73). -/
theorem pc_of_retired_step (h : step s = .next t) (hf : t.fault = none) :
    s.pc < 256 ∧ t.pc = s.pc + 1 + (decodeOpcode (s.mem.peek s.pc)).2 := by
  obtain ⟨-, ⟨-, rfl⟩ | ⟨-, -, rfl⟩ | ⟨inside, he⟩⟩ := step_cases h
  · cases hf
  · cases hf
  · obtain hr | ⟨b, -, rfl⟩ := exec_inversion he
    · exact ⟨by omega, by rw [hr.pc_eq, current_operands_length]⟩
    · cases hf

/-- Settles O14, from the pc after a retired step and the operand count of each opcode. -/
theorem retiredStepAdvancesPcPastItsBytes : Obligations.RetiredStepAdvancesPcPastItsBytes := by
  intro s t op h hf hop
  obtain ⟨-, rfl⟩ := memRead_ok hop
  obtain ⟨-, pc⟩ := pc_of_retired_step h hf
  refine ⟨pc, ?two, ?one, ?hlt, ?unrecognized⟩
  case two => rintro (op | op) <;> rw [pc, op] <;> rfl
  case one => rintro (op | op | op) <;> rw [pc, op] <;> rfl
  case hlt =>
    intro op
    rw [pc, op]
    rfl
  case unrecognized =>
    intro op
    rw [pc, decodeOpcode_unrecognized op, Nat.add_zero]

/-! ### Every run stops -/

theorem run_succ (h : step s = .next t) (k : Nat) : core.run (k + 1) s = core.run k t := by
  have : core.step s = .next t := h
  simp only [Host.Core.run, this]

/-- Settles O15, by induction on the addresses left: a step that retires leaves fewer, and any other step faults. -/
theorem everyRunStops : Obligations.EveryRunStops := by
  intro s
  induction left : 256 - s.pc using Nat.strong_induction_on generalizing s with
  | _ n ih =>
    by_cases en : s.Enabled
    · obtain ⟨t, ht⟩ := exists_step_eq_next en
      by_cases hf : t.fault = none
      · obtain ⟨inside, pc⟩ := pc_of_retired_step ht hf
        obtain ⟨k, u, bound, run, stopped, retired⟩ := ih (256 - t.pc) (by omega) t rfl
        exact ⟨k + 1, u, by omega, (run_succ ht k).trans run, stopped, fun hu => by have := retired hu; omega⟩
      · exact ⟨1, t, by omega, run_succ ht 0, .inr hf, fun h => absurd h hf⟩
    · have stopped : s.halted = true ∨ s.fault ≠ none := by
        rw [not_and_or, Bool.not_eq_false] at en
        exact en
      exact ⟨0, s, Nat.zero_le _, rfl, stopped, fun _ => Nat.zero_le _⟩

end Sys2Proof.Machine
end

section
/-! The frames of the instructions with register operands: a fault leaves everything but the record, and a retirement what
its effect does not write (40_fetch_decode.md R71). -/

namespace Sys2Proof.Machine

/-- Settles O39: LDI writes one register. -/
theorem ldiFrame : Obligations.LdiFrame := by
  intro s t r imm h
  obtain retired | ⟨b, hb, rfl⟩ := exec_inversion h
  · cases retired with | ldi hr =>
    refine ⟨fun j hj => ?_, rfl, rfl, fun _ => rfl, fun _ => rfl⟩
    rw [readX_advance, readX_setReg, if_neg hj]
  · obtain ⟨rfl, invalid⟩ := (invalidOperand_of_single rfl).mp hb
    exact ⟨fun _ _ => rfl, rfl, rfl, fun _ => rfl, fun hr => absurd hr (not_lt.mpr invalid)⟩

/-- Settles O40: MUL writes one register. -/
theorem mulFrame : Obligations.MulFrame := by
  intro s t a b h
  obtain retired | ⟨c, hc, rfl⟩ := exec_inversion h
  · cases retired
    refine ⟨fun j hj => ?_, rfl, rfl, fun _ => rfl, fun _ _ => rfl⟩
    rw [readX_advance, readX_setReg, if_neg hj]
  · refine ⟨fun _ _ => rfl, rfl, rfl, fun _ => rfl, fun ha hb => ?_⟩
    obtain ⟨rfl, invalid⟩ | ⟨-, rfl, invalid⟩ := (invalidOperand_of_pair rfl).mp hc
    · exact absurd ha (not_lt.mpr invalid)
    · exact absurd hb (not_lt.mpr invalid)

/-- Settles O41: PRN writes the output alone. -/
theorem prnFrame : Obligations.PrnFrame := by
  intro s t r h
  obtain retired | ⟨b, hb, rfl⟩ := exec_inversion h
  · cases retired with | prn hr =>
    exact ⟨fun _ => rfl, rfl, fun invalid => absurd hr (not_lt.mpr invalid), fun _ => rfl, fun _ => rfl⟩
  · obtain ⟨rfl, invalid⟩ := (invalidOperand_of_single rfl).mp hb
    exact ⟨fun _ => rfl, rfl, fun _ => rfl, fun _ => rfl, fun hr => absurd hr (not_lt.mpr invalid)⟩

/-- Settles O42: PUSH writes sp and the byte at the decremented sp. -/
theorem pushFrame : Obligations.PushFrame := by
  intro s t r h
  obtain retired | ⟨b, hb, rfl⟩ := exec_inversion h
  · cases retired with | push hr =>
    refine ⟨fun j hj => ?register, rfl, rfl, ?cell, fun _ => rfl, fun invalid => absurd hr (not_lt.mpr invalid)⟩
    case register => rw [readX_advance, readX_withMem, readX_preDecrement, if_neg hj]
    case cell =>
      rintro _ rfl c hc
      rw [memRead_advance, memRead_withMem_poke _ (BitVec.isLt _), if_neg hc, memRead_preDecrement]
  · obtain ⟨rfl, invalid⟩ := (invalidOperand_of_single rfl).mp hb
    exact ⟨fun _ _ => rfl, rfl, rfl, fun _ _ _ _ => rfl, fun hr => absurd hr (not_lt.mpr invalid),
      fun _ => ⟨fun _ => rfl, fun _ => rfl⟩⟩

/-- Settles O43: POP writes its register and sp. -/
theorem popFrame : Obligations.PopFrame := by
  intro s t r h
  obtain retired | ⟨b, hb, rfl⟩ := exec_inversion h
  · cases retired with | pop hr =>
    refine ⟨fun j hj h7 => ?_, rfl, rfl, fun _ => rfl, fun _ => rfl, fun invalid => absurd hr (not_lt.mpr invalid)⟩
    rw [readX_advance, readX_postIncrement, if_neg h7, readX_setReg, if_neg hj]
  · obtain ⟨rfl, invalid⟩ := (invalidOperand_of_single rfl).mp hb
    exact ⟨fun _ _ _ => rfl, rfl, rfl, fun _ => rfl, fun hr => absurd hr (not_lt.mpr invalid), fun _ _ => rfl⟩

end Sys2Proof.Machine
end

section
/-! LDI and PRN whole (41_register_output.md R78 to R80): what PRN emits, and the step at each of the two. -/

namespace Sys2Proof.Machine

variable {i : Instr} {s : State} {b b1 b2 : Byte}

/-! ### The step at an instruction with one or two operand bytes -/

theorem step_eq_exec_of_one (en : s.Enabled) (wf : i.WellFormed) (operands : i.operands = [b])
    (hop : s.memRead s.pc = .ok i.opcode) (hb : s.memRead (s.pc + 1) = .ok b) : step s = exec i s := by
  refine step_eq_exec en wf hop ?_
  rw [operands]
  intro k hk
  obtain rfl : k = 0 := Nat.lt_one_iff.mp hk
  exact hb

theorem step_eq_exec_of_two (en : s.Enabled) (wf : i.WellFormed) (operands : i.operands = [b1, b2])
    (hop : s.memRead s.pc = .ok i.opcode) (h1 : s.memRead (s.pc + 1) = .ok b1) (h2 : s.memRead (s.pc + 2) = .ok b2) :
    step s = exec i s := by
  refine step_eq_exec en wf hop ?_
  rw [operands]
  intro k hk
  obtain rfl | rfl := Nat.le_one_iff_eq_zero_or_eq_one.mp (Nat.le_of_lt_succ hk)
  · exact h1
  · exact h2

/-! ### The statements -/

/-- Settles O32, from the retirement of PRN. -/
theorem prnEmitsItsRegister : Obligations.PrnEmitsItsRegister := by
  intro s r v hv
  obtain ⟨hr, rfl⟩ := readX_ok hv
  exact ⟨_, exec_prn hr, rfl, rfl, rfl⟩

/-- Settles O45: a fetch outside memory faults, and otherwise the step is the LDI, whose operand byte decides. -/
theorem stepAtLdi : Obligations.StepAtLdi := by
  intro s en
  refine ⟨step_outside en, fun hop => ⟨(operandFetchOutsideMemoryFaults s _ en hop).1, fun b1 b2 h1 h2 => ?_⟩⟩
  have ldi : step s = exec (.ldi b1 b2) s := step_eq_exec_of_two en rfl rfl hop h1 h2
  refine ⟨fun invalid => ldi.trans (exec_ldi_invalid invalid), fun valid => ?_⟩
  refine ⟨_, ldi.trans (exec_ldi valid), rfl, ?_, fun j hj => ?_⟩
  · rw [readX_advance, readX_setReg, if_pos rfl, narrow_toNat_self]
  · rw [readX_advance, readX_setReg, if_neg hj]

/-- Settles O46: a fetch outside memory faults, and otherwise the step is the PRN, whose operand byte decides. -/
theorem stepAtPrn : Obligations.StepAtPrn := by
  intro s en
  refine ⟨step_outside en, fun hop => ⟨(operandFetchOutsideMemoryFaults s _ en hop).1, fun b1 h1 => ?_⟩⟩
  have prn : step s = exec (.prn b1) s := step_eq_exec_of_one en rfl rfl hop h1
  refine ⟨fun invalid => prn.trans (exec_prn_invalid invalid), fun v hv => ?_⟩
  obtain ⟨valid, rfl⟩ := readX_ok hv
  exact prn.trans (exec_prn valid)

end Sys2Proof.Machine
end

section
/-! The ALU and MUL (42_alu.md R81 to R86): results modulo 256, the fault no step raises, and the step at a MUL. -/

namespace Sys2Proof.Machine

/-! ### The ALU -/

theorem toNat_narrow_natCast (n : Nat) : (narrow n).toNat = n % 256 := by
  exact_mod_cast narrow_toNat n

theorem toNat_narrow_add (x y : Byte) : (narrow (x.toNat + y.toNat)).toNat = (x.toNat + y.toNat) % 256 := by
  exact_mod_cast toNat_narrow_natCast (x.toNat + y.toNat)

theorem toNat_narrow_mul (x y : Byte) : (narrow (x.toNat * y.toNat)).toNat = (x.toNat * y.toNat) % 256 := by
  exact_mod_cast toNat_narrow_natCast (x.toNat * y.toNat)

/-- Settles O29: the ALU narrows the exact sum or product, and has no other operation. -/
theorem aluWrapsModulo256 : Obligations.AluWrapsModulo256 :=
  fun d s => ⟨⟨_, rfl, toNat_narrow_add d s⟩, ⟨_, rfl, toNat_narrow_mul d s⟩, fun _ => rfl⟩

/-- Settles O25: the fault a step takes is of a fetch or of a register operand. -/
theorem unsupportedOperationIsNeverRaised : Obligations.UnsupportedOperationIsNeverRaised := by
  intro s t h f hf
  obtain ⟨op, c, rfl, -, cause⟩ := eq_takeFault_of_step h (Option.ne_none_iff_exists'.mpr ⟨f, hf⟩)
  obtain rfl := Option.some.inj hf
  obtain ⟨a, rfl⟩ | ⟨k, rfl⟩ := cause <;> exact FaultKind.noConfusion

/-! ### MUL -/

variable {s : State} {a b x y : Byte}

/-- MUL of two registers that read as `x` and `y` retires with their exact product written to regA (R83, R86). -/
theorem exists_exec_mul_of_readX (hx : s.readX a.toNat = .ok x) (hy : s.readX b.toNat = .ok y) :
    ∃ ha : a.toNat < 8,
      exec (.mul a b) s = .next ((s.setReg ⟨a.toNat, ha⟩ (x.toNat * y.toNat)).advance 2) := by
  obtain ⟨ha, rfl⟩ := readX_ok hx
  obtain ⟨hb, rfl⟩ := readX_ok hy
  exact ⟨ha, exec_mul ha hb⟩

/-- Settles O33, from the retirement of MUL and the read after a register write. -/
theorem mulLeavesTheProductModulo256 : Obligations.MulLeavesTheProductModulo256 := by
  intro s a b x y hx hy
  obtain ⟨ha, retired⟩ := exists_exec_mul_of_readX hx hy
  refine ⟨_, _, retired, ?_, toNat_narrow_mul x y, rfl, rfl⟩
  rw [readX_advance, readX_setReg, if_pos rfl]

/-- Settles O47: a fetch outside memory faults, and otherwise the step is the MUL, whose operand bytes decide in order. -/
theorem stepAtMul : Obligations.StepAtMul := by
  intro s en
  refine ⟨step_outside en, fun hop => ⟨(operandFetchOutsideMemoryFaults s _ en hop).1, fun b1 b2 h1 h2 => ?_⟩⟩
  have mul : step s = exec (.mul b1 b2) s := step_eq_exec_of_two en rfl rfl hop h1 h2
  refine ⟨fun invalid => mul.trans (exec_mul_invalid_first invalid),
    fun valid invalid => mul.trans (exec_mul_invalid_second valid invalid), fun x y hx hy => ?_⟩
  obtain ⟨valid, retired⟩ := exists_exec_mul_of_readX hx hy
  refine ⟨_, _, mul.trans retired, rfl, ?_, toNat_narrow_mul x y, fun j hj => ?_⟩
  · rw [readX_advance, readX_setReg, if_pos rfl]
  · rw [readX_advance, readX_setReg, if_neg hj]

end Sys2Proof.Machine
end

section
/-! PUSH and POP whole (43_stack.md R88 to R90): the step at each of the two, and the pair. -/

namespace Sys2Proof.Machine

variable {s t : State} {r : Byte}

theorem eq_of_exec_push (valid : r.toNat < 8) (h : exec (.push r) s = .next t) :
    t = { s with regs := t.regs, mem := t.mem, pc := s.pc + 2 } := by
  rw [exec_push valid] at h
  cases h
  rfl

theorem eq_of_exec_pop (valid : r.toNat < 8) (h : exec (.pop r) s = .next t) :
    t = { s with regs := t.regs, pc := s.pc + 2 } := by
  rw [exec_pop valid] at h
  cases h
  rfl

/-- Settles O48: a fetch outside memory faults, and otherwise the step is the PUSH, whose operand byte decides. -/
theorem stepAtPush : Obligations.StepAtPush := by
  intro s en
  refine ⟨step_outside en, fun hop => ⟨(operandFetchOutsideMemoryFaults s _ en hop).1, fun b1 h1 => ?_⟩⟩
  have push : step s = exec (.push b1) s := step_eq_exec_of_one en rfl rfl hop h1
  refine ⟨fun invalid => push.trans (exec_push_invalid invalid), fun sp x hsp hx => ?_⟩
  obtain ⟨valid, -⟩ := readX_ok hx
  obtain ⟨t, ht, newSp, cell, -, -⟩ := pushStoresBelowTheStackPointer s b1 sp x hsp hx
  obtain ⟨registers, -, -, cells, -, -⟩ := pushFrame s t b1 ht
  have stored : s.preDecrement.sp.toNat = (sp - 1).toNat := by rw [sp_preDecrement, sp_eq_of_readX hsp]
  exact ⟨t, push.trans ht, eq_of_exec_push valid ht, newSp, registers, cell, cells _ stored⟩

/-- Settles O49: a fetch outside memory faults, and otherwise the step is the POP, whose operand byte decides. -/
theorem stepAtPop : Obligations.StepAtPop := by
  intro s en
  refine ⟨step_outside en, fun hop => ⟨(operandFetchOutsideMemoryFaults s _ en hop).1, fun b1 h1 => ?_⟩⟩
  have pop : step s = exec (.pop b1) s := step_eq_exec_of_one en rfl rfl hop h1
  refine ⟨fun invalid => pop.trans (exec_pop_invalid invalid), fun valid sp v hsp hv => ?_⟩
  obtain ⟨t, ht, loaded, newSp, -, -⟩ := popLoadsFromTheStackPointer s b1 sp v valid hsp hv
  obtain ⟨registers, -⟩ := popFrame s t b1 ht
  exact ⟨t, pop.trans ht, eq_of_exec_pop valid ht, loaded, newSp, registers⟩

/-- Settles O38: the POP loads what the PUSH stored, and no other register is written by either. -/
theorem pushThenPopRestoresTheRegisters : Obligations.PushThenPopRestoresTheRegisters := by
  intro s r sp x hsp hx
  obtain ⟨valid, -⟩ := readX_ok hx
  obtain ⟨t, ht, pushedSp, cell, -, -⟩ := pushStoresBelowTheStackPointer s r sp x hsp hx
  obtain ⟨u, hu, popped, poppedSp, -, -⟩ := popLoadsFromTheStackPointer t r (sp - 1) _ valid pushedSp cell
  obtain ⟨afterPush, -⟩ := pushFrame s t r ht
  obtain ⟨afterPop, -, -, cells, -⟩ := popFrame t u r hu
  refine ⟨t, u, ht, hu, fun j => ?_, (cells _).trans cell⟩
  have restoredSp : u.readX 7 = s.readX 7 := by
    rw [poppedSp, hsp]
    split <;> simp
  by_cases h7 : j = 7
  · rw [h7, restoredSp]
  by_cases hj : j = r.toNat
  · have notSp : r ≠ 7 := fun h => h7 (hj.trans (toNat_eq_seven_iff.mpr h))
    rw [hj, popped, hx, if_neg notSp, if_neg notSp]
  · rw [afterPop j hj h7, afterPush j h7]

end Sys2Proof.Machine
end

section
/-! HLT and the unrecognized bytes (44_control.md R91, R92): their effect, their frame, and the step at each. -/

namespace Sys2Proof.Machine

variable {i : Instr} {s : State}

/-! ### The two as operations -/

/-- Settles O36, by the meaning of HLT. -/
theorem hltHaltsPastItself : Obligations.HltHaltsPastItself := fun _ => exec_hlt

/-- Settles O44: HLT writes halted and the pc, and an unrecognized byte the pc alone. -/
theorem hltAndUnrecognizedFrame : Obligations.HltAndUnrecognizedFrame := by
  rintro s t i (rfl | ⟨b, rfl⟩) h
  case inl =>
    rw [exec_hlt] at h
    cases h
    exact ⟨fun _ => rfl, rfl, rfl, fun _ => rfl, fun notHlt => absurd rfl notHlt⟩
  case inr =>
    rw [exec_unrecognized] at h
    cases h
    exact ⟨fun _ => rfl, rfl, rfl, fun _ => rfl, fun _ => rfl⟩

/-! ### The step at each of the two -/

/-- The step at an instruction with no operand byte needs the opcode alone inside memory (R49, R68). -/
theorem step_eq_exec_of_no_operands (en : s.Enabled) (wf : i.WellFormed) (operands : i.operands = [])
    (hop : s.memRead s.pc = .ok i.opcode) : step s = exec i s := by
  refine step_eq_exec en wf hop ?_
  rw [operands]
  exact fun _ hk => absurd hk (Nat.not_lt_zero _)

theorem exitStatus_of_halted (hf : s.fault = none) (hh : s.halted = true) : s.exitStatus = some .zero := by
  simp [State.exitStatus, hf, hh]

/-- Settles O50: a fetch outside memory faults, at the opcode the step is the HLT, and a step that ends halted was there. -/
theorem stepAtHlt : Obligations.StepAtHlt := by
  intro s en
  obtain ⟨halted_iff, -, -⟩ := onlyHltSetsHalted
  refine ⟨step_outside en, fun hop => ?_, fun t ht halted => (halted_iff s t ht).mp halted⟩
  have hlt : step s = exec .hlt s := step_eq_exec_of_no_operands en rfl rfl hop
  exact ⟨_, hlt.trans (hltHaltsPastItself s), rfl, step_of_halted rfl, exitStatus_of_halted en.2 rfl⟩

/-- Settles O51: a fetch outside memory faults, and otherwise the step is the unrecognized instruction of that byte. -/
theorem stepAtUnrecognizedByte : Obligations.StepAtUnrecognizedByte := by
  intro s en
  refine ⟨step_outside en, fun b hop hb => ?_⟩
  have unrecognized : step s = exec (.unrecognized b) s :=
    step_eq_exec_of_no_operands en (wellFormed_unrecognized_iff.mpr hb) rfl hop
  exact unrecognized.trans (unrecognizedByteIsSkipped s b)

end Sys2Proof.Machine
end

section
/-! Exceptions (60_exceptions.md R93 to R102): which fault a step raises, that a recorded one is legal, and the exit status
it calls for. -/

namespace Sys2Proof.Machine

variable {i : Instr} {s t : State} {b : Byte}

/-! ### The exit status -/

theorem exitStatus_of_enabled (en : s.Enabled) : s.exitStatus = none := by
  simp [State.exitStatus, en.1, en.2]

theorem exitStatus_of_fault (hf : s.fault ≠ none) : s.exitStatus = some .nonZero :=
  if_pos (Option.isSome_iff_ne_none.mpr hf)

/-- Settles O55, from the exit status of each kind of block: a block that is not enabled is of one of the last two. -/
theorem exitStatusTellsHowTheRunEnded : Obligations.ExitStatusTellsHowTheRunEnded := by
  refine fun s => ⟨⟨exitStatus_of_enabled, fun running => ?_⟩, exitStatus_of_halted, exitStatus_of_fault⟩
  have noFault : s.fault = none := by
    by_contra hf
    simp [exitStatus_of_fault hf] at running
  have notHalted : s.halted = false := by
    by_contra hh
    simp [exitStatus_of_halted noFault (eq_true_of_ne_false hh)] at running
  exact ⟨notHalted, noFault⟩

/-! ### What a recorded fault says -/

theorem operandCount_le_two (op : Byte) : (decodeOpcode op).2 ≤ 2 := by
  rcases decodeOpcode_cases op with ⟨-, e⟩ | ⟨-, e⟩ | ⟨-, e⟩ | ⟨-, e⟩ | ⟨-, e⟩ | ⟨-, e⟩ | ⟨-, e⟩ <;> simp [e]

theorem eight_le_of_invalidOperand (h : invalidOperand i = some b) : 8 ≤ b.toNat := by
  simpa using List.find?_some h

/-- Settles O18: a step starts with no fault, and each way it can end with one records a legal one. -/
theorem stepKeepsFaultLegal : Obligations.StepKeepsFaultLegal := by
  intro s t _ h f hf
  obtain ⟨⟨running, noFault⟩, ⟨outside, rfl⟩ | ⟨hpc, truncated, rfl⟩ | ⟨-, he⟩⟩ := step_cases h
  case inl =>
    cases hf
    exact ⟨running, rfl, rfl, .inl ⟨rfl, rfl, outside, rfl⟩⟩
  case inr.inl =>
    cases hf
    have count := operandCount_le_two (s.mem.peek s.pc)
    have lastTwo : s.pc ∈ [254, 255] := by
      simp only [List.mem_cons, List.not_mem_nil, or_false]
      omega
    exact ⟨running, rfl, rfl, .inr (.inl ⟨rfl, lastTwo, ⟨_, rfl⟩, rfl⟩)⟩
  case inr.inr =>
    obtain hr | ⟨b, hb, rfl⟩ := exec_inversion he
    · cases (hr.fault_eq.trans noFault).symm.trans hf
    · cases hf
      exact ⟨running, rfl, rfl, .inr (.inr ⟨rfl, ⟨_, rfl⟩, b.toNat, eight_le_of_invalidOperand hb,
        Nat.le_of_lt_succ b.isLt, rfl⟩)⟩

/-! ### Which fault a step raises -/

/-- An instruction leaves the fault record of its first invalid operand, or else the one there was (R69, R71). -/
theorem fault_of_exec (h : exec i s = .next t) :
    t.fault = (invalidOperand i).elim s.fault fun b =>
      (s.takeFault (some i.opcode) (.invalidRegister b.toNat)).fault := by
  cases hb : invalidOperand i with
  | none =>
    obtain hr | ⟨b, hb', -⟩ := exec_inversion h
    · exact hr.fault_eq
    · cases hb.symm.trans hb'
  | some b =>
    rw [exec_of_invalidOperand hb] at h
    cases h
    rfl

/-- Byte 1 names a register wherever there is one, and byte 2 at MUL alone (R52, R69). -/
theorem registerOperands_instrOf (op b1 b2 : Byte) :
    registerOperands (instrOf op b1 b2) =
      (if 1 ≤ (decodeOpcode op).2 then [b1] else []) ++ (if op = 0xA2 then [b2] else []) := by
  rcases decodeOpcode_cases op with
    ⟨rfl, -⟩ | ⟨rfl, -⟩ | ⟨rfl, -⟩ | ⟨rfl, -⟩ | ⟨rfl, -⟩ | ⟨rfl, -⟩ | ⟨unrecognized, e⟩
  case inr.inr.inr.inr.inr.inr =>
    have notMul : op ≠ 0xA2 := by
      rintro rfl
      exact absurd unrecognized (by decide)
    rw [instrOf, e, if_neg notMul]
    rfl
  all_goals rfl

/-- The check of a byte that is a register operand only under a condition (R69). -/
theorem find?_invalid_optional (present : Prop) [Decidable present] (b : Byte) :
    (if present then [b] else []).find? (fun b => decide (8 ≤ b.toNat)) =
      if present ∧ 8 ≤ b.toNat then some b else none := by
  by_cases h : present
  · simp [h, List.find?_singleton]
  · simp [h]

/-- Byte 1 is checked before byte 2 (R69, R102). -/
theorem invalidOperand_instrOf (op b1 b2 : Byte) :
    invalidOperand (instrOf op b1 b2) =
      if 1 ≤ (decodeOpcode op).2 ∧ 8 ≤ b1.toNat then some b1
      else if op = 0xA2 ∧ 8 ≤ b2.toNat then some b2
      else none := by
  rw [invalidOperand, registerOperands_instrOf, List.find?_append, find?_invalid_optional, find?_invalid_optional]
  split
  · rfl
  · exact Option.none_or

/-- Settles O12: the cases before the fetch that fails do not apply, and with all bytes inside memory the first
invalid operand decides. -/
theorem stepRaisesTheFirstFaultInOrder : Obligations.StepRaisesTheFirstFaultInOrder := by
  intro s en
  obtain ⟨t, ht⟩ := exists_step_eq_next en
  refine ⟨t, ht, ?_⟩
  obtain ⟨-, ⟨outside, rfl⟩ | ⟨hpc, truncated, rfl⟩ | ⟨inside, he⟩⟩ := step_cases ht
  case inl => exact (if_pos outside).symm
  case inr.inl =>
    have count := operandCount_le_two (s.mem.peek s.pc)
    dsimp only
    rw [if_neg (by omega)]
    obtain pc | pc : s.pc = 255 ∨ s.pc = 254 := by omega
    · rw [if_pos (by omega), (by omega : s.pc + 1 = 256)]
      rfl
    · rw [if_neg (by omega), if_pos (by omega), (by omega : s.pc + 2 = 256)]
      rfl
  case inr.inr =>
    dsimp only
    rw [if_neg (by omega), if_neg (by omega), if_neg (by omega), fault_of_exec he, State.current, invalidOperand_instrOf,
      instrOf_opcode]
    split
    · rfl
    · split
      · rfl
      · exact en.2

end Sys2Proof.Machine
end

section
/-! What reset leaves (70_reset_and_hazards.md R110) and the byte a token of a program image spells (R114, R115). -/

namespace Sys2Proof.Machine

/-! ### Reset -/

theorem reg_resetWith_of_lt (c : Config) : ∀ {i : Nat} (h : i < 7), (State.resetWith c).reg ⟨i, Nat.lt_succ_of_lt h⟩ = 0
  | 0, _ | 1, _ | 2, _ | 3, _ | 4, _ | 5, _ | 6, _ => rfl

theorem peek_resetWith (c : Config) (a : Nat) : (State.resetWith c).mem.peek a = 0 := rfl

/-- Settles O30: each read names a register or a cell that exists, so it answers the content reset gives it. -/
theorem resetLeavesTheTable : Obligations.ResetLeavesTheTable := by
  refine fun c => ⟨fun i hi => ?_, readX_sp _, rfl, rfl, rfl, fun a ha => ?_, rfl⟩
  · rw [readX_of_lt (Nat.lt_succ_of_lt hi), reg_resetWith_of_lt c hi]
  · rw [memRead_of_lt ha, peek_resetWith]

/-! ### Base-2 literals -/

/-- Reading on from `acc`, each binary digit doubles the value and adds itself (R114). -/
theorem binaryValue_bits : ∀ (bits : List Bool) (acc : Nat),
    binaryValue acc (bits.map fun b => if b then '1' else '0') = some (bits.foldl (fun n b => 2 * n + b.toNat) acc)
  | [], _ => rfl
  | false :: bits, acc => binaryValue_bits bits (2 * acc)
  | true :: bits, acc => binaryValue_bits bits (2 * acc + 1)

/-- A character that is no binary digit has no value, wherever it stands (R114). -/
theorem binaryValue_foreign {c : Char} (h0 : c ≠ '0') (h1 : c ≠ '1') : ∀ {token : List Char} (acc : Nat), c ∈ token →
    binaryValue acc token = none
  | d :: rest, acc, hc => by
    obtain rfl | later := List.mem_cons.mp hc
    · rw [binaryValue, if_neg h0, if_neg h1]
    · rw [binaryValue, binaryValue_foreign h0 h1 _ later, binaryValue_foreign h0 h1 _ later, ite_self, ite_self]

/-- A non-empty token is its base-2 value where that exists and fits a byte (R115, D16). -/
theorem tokenByte_eq_bind {token : List Char} (h : token ≠ []) :
    tokenByte token = (binaryValue 0 token).bind fun v => if v ≤ 255 then some (BitVec.ofNat 8 v) else none := by
  obtain ⟨d, rest, rfl⟩ := List.exists_cons_of_ne_nil h
  rw [tokenByte]
  cases binaryValue 0 (d :: rest) <;> rfl

/-- Settles O53: a token's byte is read off its base-2 value, which binary digits give and any other character denies. -/
theorem tokenIsABaseTwoByte : Obligations.TokenIsABaseTwoByte := by
  refine ⟨fun bits nonempty => ?_, fun token c hc h0 h1 => ?_⟩
  · rw [tokenByte_eq_bind (mt List.map_eq_nil_iff.mp nonempty), binaryValue_bits]
    rfl
  · rw [tokenByte_eq_bind (List.ne_nil_of_mem hc), binaryValue_foreign h0 h1 0 hc]
    rfl

end Sys2Proof.Machine
end
